-- ==== Sys2Proof/Word.lean ====
section
/-!
DEFINITION. The number types of the machine: Word, Cell, register index, code point.
(00_scope.md R5, R7; 10_state.md R11, R14, R18; 20_memory.md R41; 48_io.md R194)
-/

namespace Sys2Proof

/-- A Word: an unsigned integer in `[0, 32768)`, the content of a register (00_scope.md R5 `WORD_BITS`, R7). -/
abbrev Word := BitVec 15

/-- A 16-bit cell: what one memory location, one stack location and the numeric part of the instruction
pointer hold (20_memory.md R41, 10_state.md R14, R18, R27). -/
abbrev Cell := BitVec 16

/-- A register index, 0 to 7 (10_state.md R11). -/
abbrev RegIx := Fin 8

/-- A code point the input source may deliver, 0 to 1114111 (00_scope.md R6 `CODEPOINT_MAX`, 48_io.md R194). -/
abbrev CodePoint := Fin 1114112

/-- The modulus of the arithmetic: Words are the integers below it (00_scope.md R5 `MODULUS`). -/
abbrev modulus : Nat := 32768

/-- The number of memory cells; addresses are the integers below it (00_scope.md R5 `MEM_WORDS`). -/
abbrev memWords : Nat := 32768

/-- The operand value that denotes register 0 (00_scope.md R5 `REG_BASE`). -/
abbrev regBase : Nat := 32768

/-- The first operand value that is invalid (00_scope.md R5 `LIT_LIMIT`). -/
abbrev litLimit : Nat := 32776

end Sys2Proof
end

