-- ==== Sys2Proof/Syntax.lean ====
section
/-!
DEFINITION. Operands and the 22 instructions, one constructor per row of spec/opcode_table.json
(30_encoding.md R60 to R73).
-/

namespace Sys2Proof

/-- An unresolved operand word, sorted by value into its three kinds (30_encoding.md R63, R64, R65). An invalid
operand is a legal part of an instruction: it fails only when the action resolves it (R68). -/
inductive Operand where
  /-- numeric literal, a word below 32768 (R63) -/
  | lit (v : Word)
  /-- register reference, a word in `[32768, 32776)` (R64) -/
  | reg (r : RegIx)
  /-- invalid operand, a word in `[32776, 65536)` (R65); the raw word is kept, the fault reports it -/
  | invalid (w : Cell)
  deriving DecidableEq, Repr

/-- The instructions in opcode order, 0 to 21 (30_encoding.md R70). Operands stand in encoding order `a b c`. The
constructor of the row `in` is `input`, because `in` is a word of Lean's own. -/
inductive Instr where
  | halt
  | set (a b : Operand)
  | push (a : Operand)
  | pop (a : Operand)
  | eq (a b c : Operand)
  | gt (a b c : Operand)
  | jmp (a : Operand)
  | jt (a b : Operand)
  | jf (a b : Operand)
  | add (a b c : Operand)
  | mult (a b c : Operand)
  | mod (a b c : Operand)
  | and (a b c : Operand)
  | or (a b c : Operand)
  | not (a b : Operand)
  | rmem (a b : Operand)
  | wmem (a b : Operand)
  | call (a : Operand)
  | ret
  | out (a : Operand)
  | input (a : Operand)
  | noop
  deriving DecidableEq, Repr

end Sys2Proof
end

