-- ==== Sys2Proof/WellFormed.lean ====
section
/-!
DEFINITION. Well-formedness of an instruction: each operand is the reading of some 16-bit word
(30_encoding.md R63 to R65). The only ill-formed operand is an `invalid` that holds a valid word.
-/

namespace Sys2Proof

/-- An operand is the reading of some word: an `invalid` holds a word of 32776 or more (30_encoding.md R65). -/
def Operand.WellFormed : Operand → Bool
  | .lit _ => true
  | .reg _ => true
  | .invalid w => decide (litLimit ≤ w.toNat)

/-- Every operand of the instruction is well formed. -/
def Instr.WellFormed : Instr → Bool
  | .halt => true
  | .set a b => a.WellFormed && b.WellFormed
  | .push a => a.WellFormed
  | .pop a => a.WellFormed
  | .eq a b c => a.WellFormed && b.WellFormed && c.WellFormed
  | .gt a b c => a.WellFormed && b.WellFormed && c.WellFormed
  | .jmp a => a.WellFormed
  | .jt a b => a.WellFormed && b.WellFormed
  | .jf a b => a.WellFormed && b.WellFormed
  | .add a b c => a.WellFormed && b.WellFormed && c.WellFormed
  | .mult a b c => a.WellFormed && b.WellFormed && c.WellFormed
  | .mod a b c => a.WellFormed && b.WellFormed && c.WellFormed
  | .and a b c => a.WellFormed && b.WellFormed && c.WellFormed
  | .or a b c => a.WellFormed && b.WellFormed && c.WellFormed
  | .not a b => a.WellFormed && b.WellFormed
  | .rmem a b => a.WellFormed && b.WellFormed
  | .wmem a b => a.WellFormed && b.WellFormed
  | .call a => a.WellFormed
  | .ret => true
  | .out a => a.WellFormed
  | .input a => a.WellFormed
  | .noop => true

end Sys2Proof
end

