-- ==== Sys2Proof/Decode.lean ====
section
/-!
DEFINITION. Decoding, total on any list of 16-bit words and rejecting by name, and the encoder
(30_encoding.md R60 to R73, 40_step.md R91, R92).
-/

namespace Sys2Proof

/-- Why a list of words is no instruction. -/
inductive DecodeError where
  /-- there is no opcode word at all (40_step.md R91: nothing at address 32768) -/
  | noOpcode
  /-- the opcode word is above 21 (30_encoding.md R62, R73) -/
  | illegalOpcode (op : Cell)
  /-- operand word number `k`, counted from 1, is missing (40_step.md R92) -/
  | missingOperand (k : Nat)
  deriving DecidableEq, Repr

/-- An operand word sorted by its value (30_encoding.md R63, R64, R65). -/
def Operand.ofCell (w : Cell) : Operand :=
  if w.toNat < regBase then .lit (w.setWidth 15)
  else if w.toNat < litLimit then .reg (Fin.ofNat 8 (w.toNat - regBase))
  else .invalid w

/-- The word an operand is the reading of (30_encoding.md R63, R64, R65). -/
def Operand.toCell : Operand → Cell
  | .lit v => v.setWidth 16
  | .reg r => BitVec.ofNat 16 (regBase + r.val)
  | .invalid w => w

/-- Format F1: one operand word after the opcode word (30_encoding.md R61). -/
def takeOne (mk : Operand → Instr) : List Cell → Except DecodeError (Instr × List Cell)
  | a :: rest => .ok (mk (.ofCell a), rest)
  | [] => .error (.missingOperand 1)

/-- Format F2: two operand words after the opcode word (30_encoding.md R61). -/
def takeTwo (mk : Operand → Operand → Instr) : List Cell → Except DecodeError (Instr × List Cell)
  | a :: b :: rest => .ok (mk (.ofCell a) (.ofCell b), rest)
  | [_] => .error (.missingOperand 2)
  | [] => .error (.missingOperand 1)

/-- Format F3: three operand words after the opcode word (30_encoding.md R61). -/
def takeThree (mk : Operand → Operand → Operand → Instr) :
    List Cell → Except DecodeError (Instr × List Cell)
  | a :: b :: c :: rest => .ok (mk (.ofCell a) (.ofCell b) (.ofCell c), rest)
  | [_, _] => .error (.missingOperand 3)
  | [_] => .error (.missingOperand 2)
  | [] => .error (.missingOperand 1)

/-- One instruction from the front of a list of words, with the words after it: the opcode map of 30_encoding.md R70.
The opcode word is compared as a whole (R62); the operand words are sorted, never checked (R68). -/
def decode : List Cell → Except DecodeError (Instr × List Cell)
  | [] => .error .noOpcode
  | op :: ws =>
    match op.toNat with
    | 0 => .ok (.halt, ws)
    | 1 => takeTwo .set ws
    | 2 => takeOne .push ws
    | 3 => takeOne .pop ws
    | 4 => takeThree .eq ws
    | 5 => takeThree .gt ws
    | 6 => takeOne .jmp ws
    | 7 => takeTwo .jt ws
    | 8 => takeTwo .jf ws
    | 9 => takeThree .add ws
    | 10 => takeThree .mult ws
    | 11 => takeThree .mod ws
    | 12 => takeThree .and ws
    | 13 => takeThree .or ws
    | 14 => takeTwo .not ws
    | 15 => takeTwo .rmem ws
    | 16 => takeTwo .wmem ws
    | 17 => takeOne .call ws
    | 18 => .ok (.ret, ws)
    | 19 => takeOne .out ws
    | 20 => takeOne .input ws
    | 21 => .ok (.noop, ws)
    | _ => .error (.illegalOpcode op)

/-- The words of an instruction: opcode word, then the operand words in order (30_encoding.md R60, R61, R70). -/
def encode : Instr → List Cell
  | .halt => [0]
  | .set a b => [1, a.toCell, b.toCell]
  | .push a => [2, a.toCell]
  | .pop a => [3, a.toCell]
  | .eq a b c => [4, a.toCell, b.toCell, c.toCell]
  | .gt a b c => [5, a.toCell, b.toCell, c.toCell]
  | .jmp a => [6, a.toCell]
  | .jt a b => [7, a.toCell, b.toCell]
  | .jf a b => [8, a.toCell, b.toCell]
  | .add a b c => [9, a.toCell, b.toCell, c.toCell]
  | .mult a b c => [10, a.toCell, b.toCell, c.toCell]
  | .mod a b c => [11, a.toCell, b.toCell, c.toCell]
  | .and a b c => [12, a.toCell, b.toCell, c.toCell]
  | .or a b c => [13, a.toCell, b.toCell, c.toCell]
  | .not a b => [14, a.toCell, b.toCell]
  | .rmem a b => [15, a.toCell, b.toCell]
  | .wmem a b => [16, a.toCell, b.toCell]
  | .call a => [17, a.toCell]
  | .ret => [18]
  | .out a => [19, a.toCell]
  | .input a => [20, a.toCell]
  | .noop => [21]

/-- The operand words of an instruction as its encoding order has them. -/
def Instr.operands : Instr → List Operand
  | .halt => []
  | .set a b => [a, b]
  | .push a => [a]
  | .pop a => [a]
  | .eq a b c => [a, b, c]
  | .gt a b c => [a, b, c]
  | .jmp a => [a]
  | .jt a b => [a, b]
  | .jf a b => [a, b]
  | .add a b c => [a, b, c]
  | .mult a b c => [a, b, c]
  | .mod a b c => [a, b, c]
  | .and a b c => [a, b, c]
  | .or a b c => [a, b, c]
  | .not a b => [a, b]
  | .rmem a b => [a, b]
  | .wmem a b => [a, b]
  | .call a => [a]
  | .ret => []
  | .out a => [a]
  | .input a => [a]
  | .noop => []

/-- The operand count of an instruction (30_encoding.md R70, column arity). -/
def Instr.arity (i : Instr) : Nat := i.operands.length

/-- The 16-bit words of a number whose bits are an instruction's, bit 0 the least significant bit of the first word:
`nbits` bits are given, every bit above them is 0, up to the longest instruction, four words (30_encoding.md R60). -/
def tableWords (nbits w : Nat) : List Cell :=
  let bits := w % 2 ^ nbits
  [BitVec.ofNat 16 bits, BitVec.ofNat 16 (bits / 2 ^ 16), BitVec.ofNat 16 (bits / 2 ^ 32),
    BitVec.ofNat 16 (bits / 2 ^ 48)]

/-- The instruction the decoder reads from a word numbered as spec/opcode_table.json numbers it. -/
def decodeTableWord (nbits w : Nat) : Option Instr :=
  match decode (tableWords nbits w) with
  | .ok (i, _) => some i
  | .error _ => none

end Sys2Proof
end

