-- ==== Sys2Proof/Config.lean ====
section
/-!
DEFINITION. What an implementation fixes (00_scope.md R6) and the one free value of the model.
-/

namespace Sys2Proof

/-- The two parameters the spec leaves OPEN (00_scope.md R6, 92_eei_decisions.md D4, D5). They are plain data that
`State` carries and no step changes, so every statement about all states holds for every choice of them
(log entries 3, 4). -/
structure Config where
  /-- `STACK_DEPTH`: the number of stack cells, `none` for unbounded (10_state.md R19) -/
  stackDepth : Option Nat
  /-- `REG_RESET`: the eight register values after reset (10_state.md R32) -/
  regReset : Vector Word 8
  deriving DecidableEq, Repr

/-- The spec's defaults of both parameters: an unbounded stack and registers that start at 0. DESIGN CHOICE, unsafe
(log entries 3, 4): the spec names the defaults, the source gives none. -/
def Config.default : Config where
  stackDepth := none
  regReset := Vector.replicate 8 0

/-- `NEWLINE`: the code point whose output is followed by a flush (00_scope.md R6, 48_io.md R191, the spec's D15;
log entry 11). -/
def Config.newline : Word := 10

/-- The answer of the input source to `PullLine()` number `n`, where the host has lined up none: a FREE VALUE
(48_io.md R194 "the source is an oracle", 93_implementation_defined.md U13 "any value"; log entry 5). It has no body, so
nothing can be proved of it beyond its type: `none`, or a sequence of code points in the source's range. -/
opaque Config.sourceAnswer : Nat → Option (List CodePoint)

end Sys2Proof
end

