-- ==== Sys2Proof/Machine/State.lean ====
section
/-!
DEFINITION. The machine's state as plain data, the reasons a step stops, and the state after reset
(10_state.md R10 to R32, 60_exceptions.md R200, R201).
-/

namespace Sys2Proof.Machine

/-- The instruction pointer: a word address, or the halted sentinel (10_state.md R14, R17). -/
inductive Pc where
  /-- the address of the next opcode word, `[0, 32768]` in every reachable state -/
  | running (addr : Cell)
  /-- `HALTED` -/
  | halted
  deriving DecidableEq, Repr

/-- The ten fault kinds (60_exceptions.md R200). -/
inductive FaultKind where
  | outOfRange
  | invalidValue
  | immutableTarget
  | stackUnderflow
  | arithmeticError
  | illegalInstruction
  | endOfInput
  | alreadyHalted
  | fetchOutOfBounds
  | stackOverflow
  deriving DecidableEq, Repr

/-- What the fault latch records (10_state.md R24, R27; 60_exceptions.md R201). -/
structure FaultRecord where
  kind : FaultKind
  /-- the address of the opcode word of the failing instruction -/
  addr : Cell
  /-- the kind's extra value, 21 bits; 0 where R201 gives none -/
  info : BitVec 21
  deriving DecidableEq, Repr

/-- One event at the output sink (10_state.md R22, 48_io.md R191). -/
inductive OutEvent where
  /-- `Emit(c)` -/
  | emit (c : Word)
  /-- `Flush()` -/
  | flush
  deriving DecidableEq, Repr

/-- Memory as the pairs (word address, cell value) that differ from what an unlisted address reads as, addresses
strictly rising. The cell of 16 bits is the smallest unit the spec has (20_memory.md R43; log entry 1). -/
abbrev Memory := List (Nat × Cell)

/-- Everything the spec gives the machine (10_state.md R10), with its parameters and its environment's answers as plain
data (log entries 3 to 6). -/
structure State where
  /-- registers `x[0]` to `x[7]` (R11) -/
  regs : Vector Word 8
  /-- instruction pointer (R14) -/
  pc : Pc
  /-- the stack, top first (R18) -/
  stack : List Cell
  /-- the memory (R20) -/
  mem : Memory
  /-- input line buffer, next character first (R21) -/
  inbuf : List CodePoint
  /-- fault latch (R24) -/
  fault : Option FaultRecord
  /-- committed steps (R25) -/
  steps : Nat
  /-- the output trace, oldest event first (R22; log entry 6) -/
  out : List OutEvent
  /-- the model's own: the answers the input source has lined up, oldest first (log entry 5) -/
  source : List (Option (List CodePoint))
  /-- the model's own: how many times a line was asked for (log entry 5) -/
  pulls : Nat
  /-- the OPEN parameters; no step changes them (log entries 3, 4) -/
  cfg : Config
  deriving DecidableEq, Repr

/-- Why a step is refused entry. In both cases the spec changes no state at all (40_step.md R90), so the state the host
sees is the state before the step. A FAILING INSTRUCTION is no such stop: it is a next state with the latch written
(40_step.md R97; log entry 7). -/
inductive Fault where
  /-- The latch holds a fault: the step does nothing and reports the record again (40_step.md R90 (1), R98). Raised by
  the entry test of `step` and of every meaning. Safe: the spec stops here. -/
  | latched (r : FaultRecord)
  /-- The machine is halted: the step fails with `AlreadyHalted`, nothing is latched (40_step.md R90 (2)). Raised by
  the entry test of `step` and of every meaning. Safe: the spec stops here. -/
  | alreadyHalted
  deriving DecidableEq, Repr

/-- What the model gives no transition. The instruction meanings raise none of these. -/
inductive Refusal where
  /-- An instruction without a meaning. No arm of `exec` answers it. Safe. -/
  | notModelled (mnemonic : String)
  /-- `Load` after the first step, which is not an operation of the block (10_state.md R30, R31;
  93_implementation_defined.md U12). Raised by the host operations `load` and `loadImage`. Safe. -/
  | loadAfterFirstStep
  /-- An image with an odd number of bytes: the loader refuses it (20_memory.md R54). Raised by `loadImageBytes`. Safe. -/
  | imageOddLength
  /-- An image of more than 32768 words: the loader refuses it (20_memory.md R54). Raised by `loadImage` and
  `loadImageBytes`. Safe. -/
  | imageTooLong
  deriving DecidableEq, Repr

/-- The machine right after `Reset()` with the spec's default parameters (10_state.md R32, 70_reset_and_hazards.md R240).
Memory is stated; the register values are DESIGN CHOICE (log entry 3); the other values are the spec's decision D6;
the model's own fields `source`, `pulls` and `cfg` are DESIGN CHOICE (log entries 4, 5). -/
def State.reset : State where
  regs := Config.default.regReset
  pc := .running 0
  stack := []
  mem := []
  inbuf := []
  fault := none
  steps := 0
  out := []
  source := []
  pulls := 0
  cfg := Config.default

end Sys2Proof.Machine
end

