-- ==== Sys2Proof/Machine/Memory.lean ====
section
/-!
DEFINITION. Memory: reading and writing one cell, the canonical form, and a window of consecutive cells
(20_memory.md R40 to R47, 10_state.md R20).
-/

namespace Sys2Proof.Machine

/-- What an unlisted address reads as: memory is "zero-initialized" (10_state.md R20, R32). -/
def Memory.blank : Cell := 0

/-- `MemRead(addr, 1)` (20_memory.md R42). -/
def Memory.read : Memory → Nat → Cell
  | [], _ => Memory.blank
  | (k, v) :: m, a => if a = k then v else Memory.read m a

/-- `MemWrite(addr, 1, v)` (20_memory.md R42), keeping the canonical form: the entry stands at its place in the rising
order, and a cell that takes the blank value is not listed. -/
def Memory.write : Memory → Nat → Cell → Memory
  | [], a, v => if v = Memory.blank then [] else [(a, v)]
  | (k, w) :: m, a, v =>
    if a < k then
      if v = Memory.blank then (k, w) :: m else (a, v) :: (k, w) :: m
    else if a = k then
      if v = Memory.blank then m else (a, v) :: m
    else (k, w) :: Memory.write m a v

/-- The canonical form above a bound: addresses are at least `lo` and rise strictly, lie below 32768, and no listed cell
is blank. -/
def Memory.wfFrom : Nat → Memory → Bool
  | _, [] => true
  | lo, (k, v) :: m =>
    decide (lo ≤ k) && decide (k < memWords) && decide (v ≠ Memory.blank) && Memory.wfFrom (k + 1) m

/-- The canonical form of memory. Equal memories are equal lists in this form. -/
def Memory.wf (m : Memory) : Bool := Memory.wfFrom 0 m

/-- At most `n` consecutive cells from address `a`, stopping at the end of memory: address 32768 does not exist
(20_memory.md R46). -/
def Memory.window (m : Memory) : Nat → Nat → List Cell
  | 0, _ => []
  | n + 1, a => if a < memWords then m.read a :: Memory.window m n (a + 1) else []

/-- Consecutive words stored from address `a` upward; words that would lie at 32768 or above are dropped. -/
def Memory.place (m : Memory) (a : Nat) : List Cell → Memory
  | [] => m
  | w :: ws => if a < memWords then Memory.place (m.write a w) (a + 1) ws else m

end Sys2Proof.Machine
end

