-- ==== Sys2Proof/Machine/Ops.lean ====
section
/-!
DEFINITION. The operations every meaning shares: the effects of an action and their commit, taking a fault, the entry
conditions of a step, the stack test, the pull of an input line (40_step.md R90 to R97; 10_state.md R18, R19; 48_io.md
R190 to R195).
-/

namespace Sys2Proof.Machine

/-- `raise K(info)` before it is latched: the kind and its extra value (00_scope.md R8, 60_exceptions.md R201). -/
structure Raise where
  kind : FaultKind
  info : BitVec 21
  deriving DecidableEq, Repr

/-- `raise K(info)` (00_scope.md R8); kinds without an extra value take 0 (60_exceptions.md R201). -/
def raise {α : Type} (kind : FaultKind) (info : Nat) : Except Raise α :=
  .error { kind := kind, info := BitVec.ofNat 21 info }

/-- The numeric code of a fault kind (60_exceptions.md R200). -/
def FaultKind.code : FaultKind → Nat
  | .outOfRange => 1
  | .invalidValue => 2
  | .immutableTarget => 3
  | .stackUnderflow => 4
  | .arithmeticError => 5
  | .illegalInstruction => 6
  | .endOfInput => 7
  | .alreadyHalted => 8
  | .fetchOutOfBounds => 9
  | .stackOverflow => 10

/-- The one stack operation of a step (10_state.md R18). -/
inductive StackOp where
  | keep
  /-- `Push(v)` -/
  | push (v : Cell)
  /-- `Pop()` -/
  | drop
  deriving DecidableEq, Repr

/-- What a successful action asks for (40_step.md R94): at most one register write, one stack operation, one memory
write (R95), one output character, one input character, and optionally an explicit new `pc`. -/
structure Effects where
  reg : Option (RegIx × Word) := none
  stack : StackOp := .keep
  mem : Option (Word × Cell) := none
  emit : Option Word := none
  consume : Bool := false
  pc : Option Pc := none
  deriving DecidableEq, Repr

/-- `x[i] <- v` (10_state.md R11). -/
def applyReg (regs : Vector Word 8) : Option (RegIx × Word) → Vector Word 8
  | none => regs
  | some (r, v) => regs.set r v

/-- `Push(v)`, `Pop()` (10_state.md R18); the head of the list is the top. -/
def applyStack (stack : List Cell) : StackOp → List Cell
  | .keep => stack
  | .push v => v :: stack
  | .drop => stack.tail

/-- `MemWrite(addr, 1, v)` at a data address, which is a Word (20_memory.md R42, 10_state.md R29). -/
def applyMem (m : Memory) : Option (Word × Cell) → Memory
  | none => m
  | some (a, v) => m.write a.toNat v

/-- The events of one output character: `Emit(c)`, and `Flush()` after a newline (48_io.md R190, R191). -/
def emitted : Option Word → List OutEvent
  | none => []
  | some c => if c = Config.newline then [.emit c, .flush] else [.emit c]

/-- The fall-through address `next = a0 + 1 + n` (40_step.md R93). Sixteen bits hold it exactly wherever the fetch
succeeded, `a0 + n` being at most 32767 there (log entry 2). -/
def nextAddr (a0 : Cell) (arity : Nat) : Cell := a0 + 1 + BitVec.ofNat 16 arity

/-- Commit (40_step.md R95): all updates together, then `pc`, then `steps`. -/
def commit (s : State) (next : Cell) (e : Effects) : State :=
  { s with
    regs := applyReg s.regs e.reg
    stack := applyStack s.stack e.stack
    mem := applyMem s.mem e.mem
    inbuf := if e.consume then s.inbuf.tail else s.inbuf
    out := s.out ++ emitted e.emit
    pc := e.pc.getD (.running next)
    steps := s.steps + 1 }

/-- Taking a fault (40_step.md R97, 60_exceptions.md R213): `fault <- (kind, a0, info)` and nothing else. -/
def latch (s : State) (a0 : Cell) (r : Raise) : State :=
  { s with fault := some { kind := r.kind, addr := a0, info := r.info } }

/-- The entry conditions of a step in their order (40_step.md R90): a latched fault, then `AlreadyHalted`; otherwise
`a0 = pc`. -/
def entry (s : State) : Except Fault Cell :=
  match s.fault with
  | some r => .error (.latched r)
  | none =>
    match s.pc with
    | .halted => .error .alreadyHalted
    | .running a0 => .ok a0

/-- One action of `arity` operands (40_step.md R94 to R97): given `next` it raises, and the fault is latched, or it asks
for effects, and they are committed. `act` reads the same state `s`, so no update feeds its own reads. -/
def perform (s : State) (arity : Nat) (act : Cell → Except Raise Effects) :
    Host.Outcome State Fault Refusal :=
  match entry s with
  | .error f => .fault f
  | .ok a0 => .next
      (match act (nextAddr a0 arity) with
        | .error r => latch s a0 r
        | .ok e => commit s (nextAddr a0 arity) e)

/-- `Push(v)` as an effect, or `StackOverflow` when `STACK_DEPTH` is finite and reached (10_state.md R19, 42_move_stack.md
R121, 47_call_ret.md R180). -/
def pushOp (s : State) (v : Cell) : Except Raise StackOp :=
  if s.cfg.stackDepth = some s.stack.length then raise .stackOverflow 0 else .ok (.push v)

/-- The answer to the next `PullLine()`: the oldest answer lined up, and where none is lined up the free value
(48_io.md R194; log entry 5). -/
def nextAnswer (s : State) : Option (List CodePoint) :=
  match s.source with
  | r :: _ => r
  | [] => Config.sourceAnswer s.pulls

/-- `PullLine()` into the empty `inbuf` (48_io.md R192): `none` leaves it empty, and an empty answer counts as `none`
(R194, the spec's D17). -/
def pullLine (s : State) : State :=
  { s with inbuf := (nextAnswer s).getD [], source := s.source.tail, pulls := s.pulls + 1 }

/-- The state in which `in` takes its character: a line is pulled only if `inbuf` is empty (48_io.md R192, R193), and it
stays there if the step then fails (R195). -/
def refill (s : State) : State :=
  if s.inbuf.isEmpty then pullLine s else s

end Sys2Proof.Machine
end

