-- ==== Sys2Proof/Machine/Operands.lean ====
section
/-!
DEFINITION. Operand resolution `RdOp` and `WrOp` (30_encoding.md R66, R67) and the three shapes of action over it.
-/

namespace Sys2Proof.Machine

/-- `RdOp(w)` (30_encoding.md R66): a literal is itself, a register reference is the register's value at the start of the
step, an invalid word raises `OutOfRange`. -/
def rdOp (s : State) : Operand → Except Raise Word
  | .lit v => .ok v
  | .reg r => .ok s.regs[r]
  | .invalid w => raise .outOfRange w.toNat

/-- `WrOp(w, v)` (30_encoding.md R67), its checks in the rule's order: the value, a literal target, an invalid target.
The answer is the register write to commit. -/
def wrOp (a : Operand) (v : Nat) : Except Raise (RegIx × Word) :=
  if modulus ≤ v then raise .invalidValue v
  else
    match a with
    | .lit x => raise .immutableTarget x.toNat
    | .invalid w => raise .outOfRange w.toNat
    | .reg r => .ok (r, BitVec.ofNat 15 v)

/-- An action `a <- f(b)`: resolve the source, compute, write (60_exceptions.md R212 (5)). -/
def unaryOp (f : Word → Nat) (a b : Operand) (s : State) : Host.Outcome State Fault Refusal :=
  perform s 2 fun _ => do
    let vb ← rdOp s b
    let w ← wrOp a (f vb)
    pure { reg := some w }

/-- An action `a <- f(b, c)`: resolve `b`, then `c`, compute (the computation may raise), write (60_exceptions.md R212
(5)). -/
def binaryOp (f : Word → Word → Except Raise Nat) (a b c : Operand) (s : State) :
    Host.Outcome State Fault Refusal :=
  perform s 3 fun _ => do
    let vb ← rdOp s b
    let vc ← rdOp s c
    let v ← f vb vc
    let w ← wrOp a v
    pure { reg := some w }

/-- A conditional jump: the condition operand is always resolved, the target only when the jump is taken
(30_encoding.md R68 (b), the spec's D26; log entry 9). -/
def jumpIf (taken : Word → Bool) (a b : Operand) (s : State) : Host.Outcome State Fault Refusal :=
  perform s 2 fun _ => do
    let va ← rdOp s a
    if taken va then
      let t ← rdOp s b
      pure { pc := some (.running (t.setWidth 16)) }
    else
      pure {}

end Sys2Proof.Machine
end

