-- ==== Sys2Proof/Machine/Alu.lean ====
section
/-!
DEFINITION. The meanings of `add`, `mult`, `mod`, `and`, `or` and `not` (45_alu.md). Results are computed exactly on the
unsigned values and reduced as the rule says (R156, R157).
-/

namespace Sys2Proof.Machine

/-- The sum reduced modulo 32768 (R150). -/
def addValue (vb vc : Word) : Nat := (vb.toNat + vc.toNat) % modulus

/-- The product reduced modulo 32768 (R151). -/
def multValue (vb vc : Word) : Nat := (vb.toNat * vc.toNat) % modulus

/-- The non-negative remainder, or `ArithmeticError` for a zero divisor (R152). -/
def modValue (vb vc : Word) : Except Raise Nat :=
  if vc = 0 then raise .arithmeticError 0 else .ok (vb.toNat % vc.toNat)

/-- Bitwise and on 15 bits (R153). -/
def andValue (vb vc : Word) : Nat := (vb &&& vc).toNat

/-- Bitwise or on 15 bits (R154). -/
def orValue (vb vc : Word) : Nat := (vb ||| vc).toNat

/-- The complement within 15 bits (R155). -/
def notValue (vb : Word) : Nat := (~~~ vb).toNat

/-- `add a b c` (R150). -/
def execAdd (a b c : Operand) (s : State) : Host.Outcome State Fault Refusal :=
  binaryOp (fun vb vc => .ok (addValue vb vc)) a b c s

/-- `mult a b c` (R151). -/
def execMult (a b c : Operand) (s : State) : Host.Outcome State Fault Refusal :=
  binaryOp (fun vb vc => .ok (multValue vb vc)) a b c s

/-- `mod a b c` (R152): the divisor test comes before the destination test. -/
def execMod (a b c : Operand) (s : State) : Host.Outcome State Fault Refusal :=
  binaryOp (fun vb vc => modValue vb vc) a b c s

/-- `and a b c` (R153). -/
def execAnd (a b c : Operand) (s : State) : Host.Outcome State Fault Refusal :=
  binaryOp (fun vb vc => .ok (andValue vb vc)) a b c s

/-- `or a b c` (R154). -/
def execOr (a b c : Operand) (s : State) : Host.Outcome State Fault Refusal :=
  binaryOp (fun vb vc => .ok (orValue vb vc)) a b c s

/-- `not a b` (R155). -/
def execNot (a b : Operand) (s : State) : Host.Outcome State Fault Refusal :=
  unaryOp (fun vb => notValue vb) a b s

end Sys2Proof.Machine
end

