-- ==== Sys2Proof/Machine/CallRet.lean ====
section
/-!
DEFINITION. The meanings of `call` and `ret` (47_call_ret.md).
-/

namespace Sys2Proof.Machine

/-- `call a` (R180): the target is resolved, then `next` is pushed as a 16-bit cell, then control goes to the target. -/
def execCall (a : Operand) (s : State) : Host.Outcome State Fault Refusal :=
  perform s 1 fun next => do
    let t ← rdOp s a
    let op ← pushOp s next
    pure { stack := op, pc := some (.running (t.setWidth 16)) }

/-- `ret` (R181): the popped cell is the new `pc`, unchecked; on an empty stack the machine halts and no fault is
raised. -/
def execRet (s : State) : Host.Outcome State Fault Refusal :=
  perform s 0 fun _ =>
    match s.stack with
    | [] => pure { pc := some .halted }
    | t :: _ => pure { stack := .drop, pc := some (.running t) }

end Sys2Proof.Machine
end

