-- ==== Sys2Proof/Machine/Flags.lean ====
section
/-!
DEFINITION. The machine has no flags (10_state.md R23). What other machines keep in flags are here ordinary Words: the
comparison results of `eq` and `gt`, and the test of a Word against zero by `jt` and `jf`.
-/

namespace Sys2Proof.Machine

/-- The result of `eq`: 1 if the Words are equal, else 0 (43_compare.md R130). -/
def eqValue (vb vc : Word) : Nat := if vb = vc then 1 else 0

/-- The result of `gt`: 1 if the first Word is greater, as unsigned integers, else 0 (43_compare.md R131). -/
def gtValue (vb vc : Word) : Nat := if vc.toNat < vb.toNat then 1 else 0

/-- Whether a Word counts as true: any value but 0 (44_jump.md R141). -/
def wordTrue (v : Word) : Bool := decide (v ≠ 0)

end Sys2Proof.Machine
end

