-- ==== Sys2Proof/Machine/Compare.lean ====
section
/-!
DEFINITION. The meanings of `eq` and `gt` (43_compare.md).
-/

namespace Sys2Proof.Machine

/-- `eq a b c` (R130). -/
def execEq (a b c : Operand) (s : State) : Host.Outcome State Fault Refusal :=
  binaryOp (fun vb vc => .ok (eqValue vb vc)) a b c s

/-- `gt a b c` (R131). -/
def execGt (a b c : Operand) (s : State) : Host.Outcome State Fault Refusal :=
  binaryOp (fun vb vc => .ok (gtValue vb vc)) a b c s

end Sys2Proof.Machine
end

