-- ==== Sys2Proof/Machine/HaltNoop.lean ====
section
/-!
DEFINITION. The meanings of `halt` and `noop` (41_halt_noop.md).
-/

namespace Sys2Proof.Machine

/-- `halt` (R110). -/
def execHalt (s : State) : Host.Outcome State Fault Refusal :=
  perform s 0 fun _ => pure { pc := some .halted }

/-- `noop` (R111). -/
def execNoop (s : State) : Host.Outcome State Fault Refusal :=
  perform s 0 fun _ => pure {}

end Sys2Proof.Machine
end

