-- ==== Sys2Proof/Machine/Io.lean ====
section
/-!
DEFINITION. The meanings of `out` and `in` (48_io.md).
-/

namespace Sys2Proof.Machine

/-- `out a` (R190, R191). -/
def execOut (a : Operand) (s : State) : Host.Outcome State Fault Refusal :=
  perform s 1 fun _ => do
    let c ← rdOp s a
    pure { emit := some c }

/-- The action of `in` once `inbuf` was refilled if it was empty (R192): still empty means the source had no line. -/
def takeChar (a : Operand) (inbuf : List CodePoint) : Except Raise Effects :=
  match inbuf with
  | [] => raise .endOfInput 0
  | ch :: _ => do
    let w ← wrOp a ch.val
    pure { reg := some w, consume := true }

/-- `in a` (R192 to R195): a pulled line stays in `inbuf` whether or not the step then fails, so the action and its fault
are those of the refilled state. -/
def execInput (a : Operand) (s : State) : Host.Outcome State Fault Refusal :=
  perform (refill s) 1 fun _ => takeChar a (refill s).inbuf

end Sys2Proof.Machine
end

