-- ==== Sys2Proof/Machine/Jump.lean ====
section
/-!
DEFINITION. The meanings of `jmp`, `jt` and `jf` (44_jump.md).
-/

namespace Sys2Proof.Machine

/-- `jmp a` (R140). -/
def execJmp (a : Operand) (s : State) : Host.Outcome State Fault Refusal :=
  perform s 1 fun _ => do
    let t ← rdOp s a
    pure { pc := some (.running (t.setWidth 16)) }

/-- `jt a b` (R141). -/
def execJt (a b : Operand) (s : State) : Host.Outcome State Fault Refusal :=
  jumpIf (fun va => wordTrue va) a b s

/-- `jf a b` (R142). -/
def execJf (a b : Operand) (s : State) : Host.Outcome State Fault Refusal :=
  jumpIf (fun va => !wordTrue va) a b s

end Sys2Proof.Machine
end

