-- ==== Sys2Proof/Machine/MemAccess.lean ====
section
/-!
DEFINITION. The meanings of `rmem` and `wmem` (46_memory_access.md).
-/

namespace Sys2Proof.Machine

/-- `rmem a b` (R170): the cell's 16-bit value goes to the destination write, which rejects 32768 and above. -/
def execRmem (a b : Operand) (s : State) : Host.Outcome State Fault Refusal :=
  unaryOp (fun addr => (s.mem.read addr.toNat).toNat) a b s

/-- `wmem a b` (R171): both operands are sources; the cell takes the Word with bit 15 zero. -/
def execWmem (a b : Operand) (s : State) : Host.Outcome State Fault Refusal :=
  perform s 2 fun _ => do
    let addr ← rdOp s a
    let v ← rdOp s b
    pure { mem := some (addr, v.setWidth 16) }

end Sys2Proof.Machine
end

