-- ==== Sys2Proof/Machine/MoveStack.lean ====
section
/-!
DEFINITION. The meanings of `set`, `push` and `pop` (42_move_stack.md).
-/

namespace Sys2Proof.Machine

/-- `set a b` (R120). -/
def execSet (a b : Operand) (s : State) : Host.Outcome State Fault Refusal :=
  unaryOp (fun vb => vb.toNat) a b s

/-- `push a` (R121). -/
def execPush (a : Operand) (s : State) : Host.Outcome State Fault Refusal :=
  perform s 1 fun _ => do
    let v ← rdOp s a
    let op ← pushOp s (v.setWidth 16)
    pure { stack := op }

/-- `pop a` (R122): emptiness first, then the value and the target of the write, then the cell is removed. -/
def execPop (a : Operand) (s : State) : Host.Outcome State Fault Refusal :=
  perform s 1 fun _ =>
    match s.stack with
    | [] => raise .stackUnderflow 0
    | v :: _ => do
      let w ← wrOp a v.toNat
      pure { reg := some w, stack := .drop }

end Sys2Proof.Machine
end

