-- ==== Sys2Proof/Machine/Fetch.lean ====
section
/-!
DEFINITION. Fetching an instruction (40_step.md R91, R92), and placing one where the next fetch reads.
-/

namespace Sys2Proof.Machine

/-- The instruction at `a0` (40_step.md R91, R92): an opcode word at 32768, an opcode above 21, or an operand word at
32768 raises, in this order. The words are read from the memory at the start of the step. Reading more cells than the
instruction has changes nothing (20_memory.md R45; log entry 13). -/
def fetch (s : State) (a0 : Cell) : Except Raise Instr :=
  match decode (s.mem.window 4 a0.toNat) with
  | .ok (i, _) => .ok i
  | .error .noOpcode => raise .fetchOutOfBounds a0.toNat
  | .error (.illegalOpcode op) => raise .illegalInstruction op.toNat
  | .error (.missingOperand k) => raise .fetchOutOfBounds (a0.toNat + k)

/-- `s` with the words stored from the address of the next fetch upward; a halted machine fetches nothing and is left as
it is. -/
def placeAtPc (s : State) (ws : List Cell) : State :=
  match s.pc with
  | .halted => s
  | .running a0 => { s with mem := s.mem.place a0.toNat ws }

end Sys2Proof.Machine
end

