-- ==== Sys2Proof/Machine/Step.lean ====
section
/-!
DEFINITION. One step (40_step.md R90 to R97), and a state with a chosen instruction under its program counter.
-/

namespace Sys2Proof.Machine

/-- `Step()` (40_step.md R96): the entry conditions, then the fetch, whose fault is latched, then the action. -/
def step (s : State) : Host.Outcome State Fault Refusal :=
  match entry s with
  | .error f => .fault f
  | .ok a0 =>
    match fetch s a0 with
    | .error r => .next (latch s a0 r)
    | .ok i => exec i s

/-- `s` with the instruction of `w` stored where `step` fetches next (the bits above `nbits` are 0, up to four words). -/
def State.withFetchWord (s : State) (nbits w : Nat) : State :=
  placeAtPc s (tableWords nbits w)

end Sys2Proof.Machine
end

