-- ==== Sys2Proof/Machine/Run.lean ====
section
/-!
DEFINITION. The host's side of the interface: `Reset()`, `Load` and the image loader, the step budget and the run loop
(10_state.md R26, R30, R31; 20_memory.md R52 to R54; 40_step.md R99; 70_reset_and_hazards.md R240, R242).
-/

namespace Sys2Proof.Machine

/-- `Reset()` in any condition (70_reset_and_hazards.md R240): every piece of state takes R32's value. The parameters and
the input source lie outside the block and stay as they are (log entry 14). -/
def hostReset (s : State) : State :=
  { State.reset with
    regs := s.cfg.regReset, source := s.source, pulls := s.pulls, cfg := s.cfg }

/-- No step has been taken since the reset: none committed and none failed (10_state.md R31). -/
def beforeFirstStep (s : State) : Bool := s.steps == 0 && s.fault.isNone

/-- `Load(addr, word)`: after reset and before the first step `mem[addr] <- word`; any other time it is no operation of
the block (10_state.md R30, R31; 20_memory.md R52). -/
def load (addr : Word) (word : Cell) (s : State) : Host.Outcome State Fault Refusal :=
  if beforeFirstStep s then .next { s with mem := s.mem.write addr.toNat word }
  else .refused .loadAfterFirstStep

/-- An image of words loaded from address 0 upward; one of more than 32768 words is refused (20_memory.md R52, R54). -/
def loadImage (ws : List Cell) (s : State) : Host.Outcome State Fault Refusal :=
  if memWords < ws.length then .refused .imageTooLong
  else if beforeFirstStep s then .next { s with mem := s.mem.place 0 ws }
  else .refused .loadAfterFirstStep

/-- The words of an image's bytes, little-endian; an odd number of bytes has none (20_memory.md R53, R54). -/
def imageWords : List (BitVec 8) → Option (List Cell)
  | [] => some []
  | [_] => none
  | lo :: hi :: rest => (imageWords rest).map fun ws => (hi ++ lo : BitVec 16) :: ws

/-- An image of bytes in front of the block: odd and too long images are refused, nothing loaded (20_memory.md R54). -/
def loadImageBytes (bytes : List (BitVec 8)) (s : State) : Host.Outcome State Fault Refusal :=
  match imageWords bytes with
  | none => .refused .imageOddLength
  | some ws => loadImage ws s

/-- The run budget (10_state.md R26). -/
inductive Budget where
  | unbounded
  | steps (n : Nat)
  | untilTotal (t : Nat)
  deriving DecidableEq, Repr

/-- Why a run stopped (40_step.md R99). -/
inductive StopReason where
  | halted
  | fault (r : FaultRecord)
  | budget
  deriving DecidableEq, Repr

/-- The state after `Step()`: a refused entry changes nothing (40_step.md R90). -/
def afterStep (s : State) : State :=
  match step s with
  | .next t => t
  | .fault _ => s
  | .refused _ => s

/-- The tests at the head of the run loop before the budget's: a latched fault, then `HALTED` (40_step.md R99). -/
def stopReason (s : State) : Option StopReason :=
  match s.fault with
  | some r => some (.fault r)
  | none =>
    match s.pc with
    | .halted => some .halted
    | .running _ => none

/-- The run loop with `limit - done` steps left (40_step.md R99). -/
def runFor : Nat → State → State × StopReason
  | 0, s => (s, (stopReason s).getD .budget)
  | n + 1, s =>
    match stopReason s with
    | some r => (s, r)
    | none => runFor n (afterStep s)

/-- The limit of a bounded budget; `steps` is read once, at the start (40_step.md R99). -/
def Budget.limit (s : State) : Budget → Option Nat
  | .unbounded => none
  | .steps n => some n
  | .untilTotal t => some (t - s.steps)

/-- `Run(budget)` returns with this state and reason (40_step.md R99). With `Unbounded` it returns when some number of
steps brings it to a halt or a fault, and otherwise never (R100), so it is a relation. -/
def Runs (b : Budget) (s : State) (r : State × StopReason) : Prop :=
  match b.limit s with
  | some n => r = runFor n s
  | none => ∃ n, r = runFor n s ∧ r.2 ≠ .budget

end Sys2Proof.Machine
end

