-- ==== Sys2Proof/Safety.lean ====
section
/-!
DEFINITION. The terms claims are stated in: when the machine runs, what an operand denotes, how a run ends, what a fault
may record, the invariant of the state, the input stream a program sees.
-/

namespace Sys2Proof.Machine

/-- Condition RUNNING at address `a0` (40_step.md R101): no latched fault and a numeric `pc`. -/
abbrev Running (s : State) (a0 : Cell) : Prop := s.fault = none ∧ s.pc = .running a0

/-- What an operand denotes as a source: a literal itself, a register reference the register's content, an invalid word
nothing (30_encoding.md R63 to R66). -/
def operandValue (s : State) : Operand → Option Word
  | .lit v => some v
  | .reg r => some s.regs[r]
  | .invalid _ => none

/-- The register an operand names, if it names one (30_encoding.md R64). -/
def operandRegister : Operand → Option RegIx
  | .lit _ => none
  | .reg r => some r
  | .invalid _ => none

/-- The destination register of an instruction: the register named by its `dst` operand (10_state.md R13). -/
def destination : Instr → Option RegIx
  | .halt => none
  | .set a _ => operandRegister a
  | .push _ => none
  | .pop a => operandRegister a
  | .eq a _ _ => operandRegister a
  | .gt a _ _ => operandRegister a
  | .jmp _ => none
  | .jt _ _ => none
  | .jf _ _ => none
  | .add a _ _ => operandRegister a
  | .mult a _ _ => operandRegister a
  | .mod a _ _ => operandRegister a
  | .and a _ _ => operandRegister a
  | .or a _ _ => operandRegister a
  | .not a _ => operandRegister a
  | .rmem a _ => operandRegister a
  | .wmem _ _ => none
  | .call _ => none
  | .ret => none
  | .out _ => none
  | .input a => operandRegister a
  | .noop => none

/-- A run has ended well (70_reset_and_hazards.md R248). -/
abbrev EndedWell (s : State) : Prop := s.pc = .halted ∧ s.fault = none

/-- A run has ended badly (70_reset_and_hazards.md R248): a faulted state is never a good final state. -/
abbrev EndedBadly (s : State) : Prop := s.fault ≠ none

/-- The largest code point the input source may deliver (00_scope.md R6 `CODEPOINT_MAX`). -/
abbrev codePointMax : Nat := 1114111

/-- What the extra value of a latched fault may be (60_exceptions.md R201). `AlreadyHalted` is never latched. -/
def infoLegal : FaultKind → Nat → Bool
  | .outOfRange, n => decide (litLimit ≤ n) && decide (n < 65536)
  | .invalidValue, n => decide (modulus ≤ n) && decide (n ≤ codePointMax)
  | .immutableTarget, n => decide (n < modulus)
  | .stackUnderflow, n => n == 0
  | .arithmeticError, n => n == 0
  | .illegalInstruction, n => decide (22 ≤ n) && decide (n < 65536)
  | .endOfInput, n => n == 0
  | .alreadyHalted, _ => false
  | .fetchOutOfBounds, n => n == 32768
  | .stackOverflow, n => n == 0

/-- A latched fault stands at the `pc` it left, and records a legal value (40_step.md R97, R101; 60_exceptions.md R201). -/
def faultLegal (pc : Pc) : Option FaultRecord → Bool
  | none => true
  | some r => decide (pc = .running r.addr) && infoLegal r.kind r.info.toNat

/-- A numeric `pc` is at most 32768 (10_state.md R14). -/
def pcLegal : Pc → Bool
  | .running a => decide (a.toNat ≤ memWords)
  | .halted => true

/-- The stack is no deeper than `STACK_DEPTH` (10_state.md R19). -/
def depthLegal (depth : Option Nat) (n : Nat) : Bool :=
  match depth with
  | none => true
  | some d => decide (n ≤ d)

/-- The invariant of the state (10_state.md R29, with R14, R18, R19, R24): memory is in canonical form, `pc` and every
stack cell are in `[0, 32768]`, the stack fits, and the fault latch is consistent. The ranges of registers, memory cells
and code points hold by their types. -/
def State.Inv (s : State) : Prop :=
  s.mem.wf = true ∧
  pcLegal s.pc = true ∧
  (∀ c ∈ s.stack, c.toNat ≤ memWords) ∧
  depthLegal s.cfg.stackDepth s.stack.length = true ∧
  faultLegal s.pc s.fault = true

/-- The characters of the answers lined up, up to the first answer that is no line (48_io.md R193, R194). -/
def linedUp : List (Option (List CodePoint)) → List CodePoint
  | some (c :: l) :: rest => (c :: l) ++ linedUp rest
  | _ => []

/-- The input stream as the program sees it, as far as it is lined up (48_io.md R193): the unconsumed characters of the
line buffer, then the pulled lines in order. -/
def inputStream (s : State) : List CodePoint := s.inbuf ++ linedUp s.source

end Sys2Proof.Machine
end

