-- ==== Sys2Proof/Certificates/Slice0/Obligations.lean ====
section
/-!
DEFINITION. The statements for the provers. Terms shared by several statements come first, then the statements: encoding,
the step, the instructions in opcode order, frames, whole-machine rules, the host's operations.
-/

namespace Sys2Proof.Claims

open Sys2Proof Sys2Proof.Machine

/-- A step's outcome: a next state, a fault or a refusal. -/
abbrev Out := Host.Outcome State Fault Refusal

/-- The outcome is a next state whose latch records this kind and this extra value (60_exceptions.md R201). -/
def Raises (o : Out) (kind : FaultKind) (info : Nat) : Prop :=
  ∃ t r, o = .next t ∧ t.fault = some r ∧ r.kind = kind ∧ r.info.toNat = info

/-- Every register holds what it held. -/
def KeepsRegs (s t : State) : Prop := ∀ q : RegIx, t.regs[q] = s.regs[q]

/-- Every memory cell reads as it read. -/
def KeepsMem (s t : State) : Prop := ∀ k : Nat, t.mem.read k = s.mem.read k

/-- Register `r` holds `v` and every other register what it held. -/
def SetsReg (s t : State) (r : RegIx) (v : Word) : Prop :=
  t.regs[r] = v ∧ ∀ q : RegIx, q ≠ r → t.regs[q] = s.regs[q]

/-- The outcome is a next state without a fault in which the destination register `r` holds a value that satisfies `P`,
control falls through to `next`, and the other registers, the stack, memory, the line buffer and the output are
unchanged. -/
def WritesOnly (o : Out) (s : State) (r : RegIx) (P : Word → Prop) (next : Cell) : Prop :=
  ∃ t v, o = .next t ∧ P v ∧ SetsReg s t r v ∧ t.pc = .running next ∧ t.fault = none ∧
    t.stack = s.stack ∧ KeepsMem s t ∧ t.inbuf = s.inbuf ∧ t.out = s.out

/-- The outcome is a next state without a fault whose `pc` is the given one, with registers, stack, memory, line buffer
and output unchanged. -/
def GoesTo (o : Out) (s : State) (pc : Pc) : Prop :=
  ∃ t, o = .next t ∧ t.pc = pc ∧ t.fault = none ∧
    KeepsRegs s t ∧ t.stack = s.stack ∧ KeepsMem s t ∧ t.inbuf = s.inbuf ∧ t.out = s.out

/-- The law of an instruction `dst src`: encoding, result, and the faults in priority order (the source, then the
destination). `P` relates the source's Word to the result. -/
def UnaryLaw (op : Cell) (mk : Operand → Operand → Instr) (P : Word → Word → Prop) : Prop :=
  (∀ a b, encode (mk a b) = [op, a.toCell, b.toCell]) ∧
  ∀ (s : State) (a0 : Cell), Running s a0 →
    (∀ r b vb, operandValue s b = some vb →
      WritesOnly (exec (mk (.reg r) b) s) s r (P vb) (a0 + 3)) ∧
    (∀ a w, Raises (exec (mk a (.invalid w)) s) .outOfRange w.toNat) ∧
    (∀ x b vb, operandValue s b = some vb →
      Raises (exec (mk (.lit x) b) s) .immutableTarget x.toNat) ∧
    (∀ w b vb, operandValue s b = some vb →
      Raises (exec (mk (.invalid w) b) s) .outOfRange w.toNat)

/-- The law of an instruction `dst src src`: encoding, result, and the faults in priority order (`b`, `c`, the
destination). `P` relates the sources' Words to the result; `defined` says for which second source the operation itself
raises nothing. -/
def BinaryLaw (op : Cell) (mk : Operand → Operand → Operand → Instr) (defined : Word → Prop)
    (P : Word → Word → Word → Prop) : Prop :=
  (∀ a b c, encode (mk a b c) = [op, a.toCell, b.toCell, c.toCell]) ∧
  ∀ (s : State) (a0 : Cell), Running s a0 →
    (∀ r b c vb vc, operandValue s b = some vb → operandValue s c = some vc → defined vc →
      WritesOnly (exec (mk (.reg r) b c) s) s r (P vb vc) (a0 + 4)) ∧
    (∀ a w c, Raises (exec (mk a (.invalid w) c) s) .outOfRange w.toNat) ∧
    (∀ a b vb w, operandValue s b = some vb →
      Raises (exec (mk a b (.invalid w)) s) .outOfRange w.toNat) ∧
    (∀ x b c vb vc, operandValue s b = some vb → operandValue s c = some vc → defined vc →
      Raises (exec (mk (.lit x) b c) s) .immutableTarget x.toNat) ∧
    (∀ w b c vb vc, operandValue s b = some vb → operandValue s c = some vc → defined vc →
      Raises (exec (mk (.invalid w) b c) s) .outOfRange w.toNat)

/-- The law of a conditional jump: encoding, taken and not taken, and the faults. `taken` is the condition. The target is
not resolved when the jump is not taken: the spec's own decision D26 (30_encoding.md R68 (b)). -/
def JumpLaw (op : Cell) (mk : Operand → Operand → Instr) (taken : Word → Prop) : Prop :=
  (∀ a b, encode (mk a b) = [op, a.toCell, b.toCell]) ∧
  ∀ (s : State) (a0 : Cell), Running s a0 →
    (∀ a b va vb, operandValue s a = some va → taken va → operandValue s b = some vb →
      GoesTo (exec (mk a b) s) s (.running (vb.setWidth 16))) ∧
    (∀ a b va, operandValue s a = some va → ¬ taken va →
      GoesTo (exec (mk a b) s) s (.running (a0 + 3))) ∧
    (∀ w b, Raises (exec (mk (.invalid w) b) s) .outOfRange w.toNat) ∧
    (∀ a va w, operandValue s a = some va → taken va →
      Raises (exec (mk a (.invalid w)) s) .outOfRange w.toNat)

/-- The arity column of 30_encoding.md R70, by opcode number. -/
def arityColumn : List Nat := [0, 2, 1, 1, 3, 3, 1, 2, 2, 3, 3, 3, 3, 3, 2, 2, 2, 1, 0, 1, 1, 0]

end Sys2Proof.Claims

open Sys2Proof Sys2Proof.Machine Sys2Proof.Claims

/-! ## Encoding -/

/-- Words written out from the tables of 30_encoding.md sections 1 to 3 decode to the instruction they stand for, one or
more of each family. -/
def Obligations.SpecWordsDecodeToTheirInstruction : Prop :=
  decode [0] = .ok (.halt, []) ∧
  decode [21] = .ok (.noop, []) ∧
  decode [1, 32775, 32767] = .ok (.set (.reg 7) (.lit 32767), []) ∧
  decode [3, 32770] = .ok (.pop (.reg 2), []) ∧
  decode [4, 32768, 32769, 7] = .ok (.eq (.reg 0) (.reg 1) (.lit 7), []) ∧
  decode [7, 40000, 16384] = .ok (.jt (.invalid 40000) (.lit 16384), []) ∧
  decode [9, 32768, 4, 5] = .ok (.add (.reg 0) (.lit 4) (.lit 5), []) ∧
  decode [16, 5, 32768] = .ok (.wmem (.lit 5) (.reg 0), []) ∧
  decode [17, 6] = .ok (.call (.lit 6), []) ∧
  decode [20, 32768] = .ok (.input (.reg 0), [])

/-- Decoding the encoding of any well-formed instruction, whatever words follow, gives the instruction back with every
operand. -/
def Obligations.DecodeInvertsEncode : Prop :=
  ∀ (i : Instr) (rest : List Cell), i.WellFormed = true → decode (encode i ++ rest) = .ok (i, rest)

/-- Whatever decodes is a well-formed instruction, and encoding it gives the words back. -/
def Obligations.EncodeInvertsDecode : Prop :=
  ∀ (ws rest : List Cell) (i : Instr), decode ws = .ok (i, rest) →
    i.WellFormed = true ∧ encode i ++ rest = ws

/-- 30_encoding.md R62: the opcode word is compared whole, selects an instruction exactly when it is at most 21, and any
other opcode word fails with `IllegalInstruction`. -/
def Obligations.OpcodeWordSelectsInstruction : Prop :=
  (∀ op a b c : Cell, (∃ i rest, decode [op, a, b, c] = .ok (i, rest)) ↔ op.toNat ≤ 21) ∧
  (∀ (op : Cell) (ws : List Cell), 21 < op.toNat → decode (op :: ws) = .error (.illegalOpcode op)) ∧
  (∀ (s : State) (a0 : Cell), Running s a0 → a0.toNat < 32768 → 21 < (s.mem.read a0.toNat).toNat →
    Raises (step s) .illegalInstruction (s.mem.read a0.toNat).toNat)

/-- 30_encoding.md R63, R64: an operand word below 32768 denotes itself, one from 32768 to 32775 the register
`value - 32768`, which is its low three bits; any other is invalid and is kept raw. -/
def Obligations.OperandWordKinds : Prop :=
  ∀ w : Cell,
    (w.toNat < 32768 → ∃ v : Word, Operand.ofCell w = .lit v ∧ v.toNat = w.toNat) ∧
    (32768 ≤ w.toNat → w.toNat < 32776 →
      ∃ r : RegIx, Operand.ofCell w = .reg r ∧ r.val = w.toNat - 32768 ∧ r.val = w.toNat % 8) ∧
    (32776 ≤ w.toNat → Operand.ofCell w = .invalid w)

/-! ## The step -/

/-- When the words at the program counter decode to an instruction, the step is that instruction's action on the same
state; nothing is added around it. -/
def Obligations.StepRunsTheDecodedInstruction : Prop :=
  ∀ (s : State) (a0 : Cell) (i : Instr) (rest : List Cell), Running s a0 →
    decode (s.mem.window 4 a0.toNat) = .ok (i, rest) → step s = exec i s

/-- When memory holds the encoding of a well-formed instruction from `pc` upward, all of it below address 32768, the step
runs that instruction, whatever stands behind it. -/
def Obligations.StepRunsTheEncodedInstruction : Prop :=
  ∀ (s : State) (a0 : Cell) (i : Instr), Running s a0 → i.WellFormed = true →
    (∀ k : Nat, k < (encode i).length →
      a0.toNat + k < 32768 ∧ (encode i)[k]? = some (s.mem.read (a0.toNat + k))) →
    step s = exec i s

/-- An opcode word above 21 fails with `IllegalInstruction`, recording the address and the value, and the instruction
pointer and all else stay, whatever stands or does not stand behind it. That all else stays is the spec's own decision D7
(40_step.md R97). -/
def Obligations.IllegalOpcodeLatchesAddressAndValue : Prop :=
  ∀ (s : State) (a0 : Cell), Running s a0 → a0.toNat < 32768 → 21 < (s.mem.read a0.toNat).toNat →
    step s = .next { s with fault := some { kind := .illegalInstruction, addr := a0,
                                            info := (s.mem.read a0.toNat).setWidth 21 } }

/-- A fetch at address 32768 fails with `FetchOutOfBounds`: of the opcode when `pc` is 32768, and of an operand word when
the instruction does not fit below 32768. The fault kind is the spec's own (decision D2: 40_step.md R91, R92). -/
def Obligations.FetchPastTheTopFaults : Prop :=
  (∀ s : State, Running s 32768 →
    step s = .next { s with fault := some { kind := .fetchOutOfBounds, addr := 32768, info := 32768 } }) ∧
  (∀ (s : State) (a0 : Cell) (n : Nat), Running s a0 → a0.toNat < 32768 →
    arityColumn[(s.mem.read a0.toNat).toNat]? = some n → 32768 ≤ a0.toNat + n →
    step s = .next { s with fault := some { kind := .fetchOutOfBounds, addr := a0, info := 32768 } })

/-- A step on a faulted machine reports the latched record again and changes nothing; a step on a halted machine reports
`AlreadyHalted` and changes nothing. The latch and its re-report are the spec's own decision D9 (40_step.md R90). -/
def Obligations.FaultedOrHaltedMachineDoesNotStep : Prop :=
  (∀ (s : State) (r : FaultRecord), s.fault = some r → step s = .fault (.latched r) ∧ afterStep s = s) ∧
  (∀ s : State, s.fault = none → s.pc = .halted → step s = .fault .alreadyHalted ∧ afterStep s = s)

/-- Faults are precise: when an instruction's action raises, the latch records the address of its opcode and nothing else
changes; only an `in` that found the line buffer empty keeps the line it pulled. This is the spec's own decision D7
(40_step.md R97), with D17 for `in` (48_io.md R195). -/
def Obligations.FaultsArePrecise : Prop :=
  ∀ (i : Instr) (s t : State) (a0 : Cell) (r : FaultRecord), Running s a0 → exec i s = .next t →
    t.fault = some r →
    r.addr = a0 ∧
    t = { s with fault := some r, inbuf := t.inbuf, source := t.source, pulls := t.pulls } ∧
    ((∀ a, i ≠ .input a) ∨ s.inbuf ≠ [] →
      t.inbuf = s.inbuf ∧ t.source = s.source ∧ t.pulls = s.pulls)

/-- Every committed action counts one step, the halting ones too, and a failing one counts none. The counter is the
spec's own decision D13 (10_state.md R25). -/
def Obligations.CommittedStepsAreCounted : Prop :=
  ∀ (i : Instr) (s t : State), exec i s = .next t →
    (t.fault = none → t.steps = s.steps + 1) ∧ (t.fault ≠ none → t.steps = s.steps)

/-! ## The instructions, in opcode order -/

/-- 41_halt_noop.md R110: `halt` sets `pc` to the halted sentinel and changes no register, stack cell, memory cell,
line-buffer character or output; the step is counted; the next step reports `AlreadyHalted` and changes nothing; a zero
cell under `pc` executes it. -/
def Obligations.HaltStopsTheMachine : Prop :=
  encode .halt = [0] ∧
  ∀ (s : State) (a0 : Cell), Running s a0 →
    (∃ t, exec .halt s = .next t ∧ t.pc = .halted ∧ t.fault = none ∧ t.steps = s.steps + 1 ∧
      KeepsRegs s t ∧ t.stack = s.stack ∧ KeepsMem s t ∧ t.inbuf = s.inbuf ∧ t.out = s.out ∧
      step t = .fault .alreadyHalted ∧ afterStep t = t) ∧
    (a0.toNat < 32768 → s.mem.read a0.toNat = 0 → step s = exec .halt s)

/-- 42_move_stack.md R120: `set a b` puts the source's Word into the destination register. -/
def Obligations.SetCopiesASource : Prop :=
  UnaryLaw 1 Instr.set fun vb v => v = vb

/-- 42_move_stack.md section for `push`: the source's Word becomes the new top of the stack, nothing else changes but
`pc`; `OutOfRange` for an invalid operand. `StackOverflow` at a finite depth is the spec's own decision D4 (10_state.md
R19; log entry 4). -/
def Obligations.PushPutsAWordOnTheStack : Prop :=
  (∀ a, encode (.push a) = [2, a.toCell]) ∧
  ∀ (s : State) (a0 : Cell), Running s a0 →
    (∀ a v, operandValue s a = some v → s.cfg.stackDepth ≠ some s.stack.length →
      ∃ t, exec (.push a) s = .next t ∧ t.stack = v.setWidth 16 :: s.stack ∧ t.pc = .running (a0 + 2) ∧
        t.fault = none ∧ KeepsRegs s t ∧ KeepsMem s t ∧ t.inbuf = s.inbuf ∧ t.out = s.out) ∧
    (∀ w, Raises (exec (.push (.invalid w)) s) .outOfRange w.toNat) ∧
    (∀ a v, operandValue s a = some v → s.cfg.stackDepth = some s.stack.length →
      Raises (exec (.push a) s) .stackOverflow 0)

/-- 42_move_stack.md section for `pop`: the top of the stack goes to the destination register and is removed. The faults
in priority order: an empty stack whatever the operand, a top cell that is no Word (only 32768 in a reachable state: the
spec's own decision D3), a literal or invalid destination. -/
def Obligations.PopTakesTheTop : Prop :=
  (∀ a, encode (.pop a) = [3, a.toCell]) ∧
  ∀ (s : State) (a0 : Cell), Running s a0 →
    (∀ r c rest, s.stack = c :: rest → c.toNat < 32768 →
      ∃ t v, exec (.pop (.reg r)) s = .next t ∧ v.toNat = c.toNat ∧ SetsReg s t r v ∧ t.stack = rest ∧
        t.pc = .running (a0 + 2) ∧ t.fault = none ∧ KeepsMem s t ∧ t.inbuf = s.inbuf ∧ t.out = s.out) ∧
    (∀ a, s.stack = [] → Raises (exec (.pop a) s) .stackUnderflow 0) ∧
    (∀ a c rest, s.stack = c :: rest → 32768 ≤ c.toNat → Raises (exec (.pop a) s) .invalidValue c.toNat) ∧
    (∀ x c rest, s.stack = c :: rest → c.toNat < 32768 →
      Raises (exec (.pop (.lit x)) s) .immutableTarget x.toNat) ∧
    (∀ w c rest, s.stack = c :: rest → c.toNat < 32768 →
      Raises (exec (.pop (.invalid w)) s) .outOfRange w.toNat)

/-- 43_compare.md R130: `eq` writes 1 if the resolved Words are equal and 0 otherwise. -/
def Obligations.EqWritesOneExactlyWhenEqual : Prop :=
  BinaryLaw 4 Instr.eq (fun _ => True) fun vb vc v =>
    (vb = vc → v.toNat = 1) ∧ (vb ≠ vc → v.toNat = 0)

/-- 43_compare.md R131: `gt` writes 1 if the first Word is greater than the second as unsigned integers and 0
otherwise. -/
def Obligations.GtWritesOneExactlyWhenGreater : Prop :=
  BinaryLaw 5 Instr.gt (fun _ => True) fun vb vc v =>
    (vb.toNat > vc.toNat → v.toNat = 1) ∧ (vb.toNat ≤ vc.toNat → v.toNat = 0)

/-- 44_jump.md R140: `jmp` sets `pc` to the source's Word, absolute, and changes nothing else. -/
def Obligations.JmpGoesToItsOperand : Prop :=
  (∀ a, encode (.jmp a) = [6, a.toCell]) ∧
  ∀ (s : State) (a0 : Cell), Running s a0 →
    (∀ a v, operandValue s a = some v → GoesTo (exec (.jmp a) s) s (.running (v.setWidth 16))) ∧
    (∀ w, Raises (exec (.jmp (.invalid w)) s) .outOfRange w.toNat)

/-- `jt` jumps exactly when its condition is not zero. That an invalid target of a jump not taken raises nothing is the
spec's own decision D26 (30_encoding.md R68; log entry 9). -/
def Obligations.JtJumpsWhenNonzero : Prop :=
  JumpLaw 7 Instr.jt fun va => va.toNat ≠ 0

/-- `jf` jumps exactly when its condition is zero. That an invalid target of a jump not taken raises nothing is the
spec's own decision D26 (30_encoding.md R68; log entry 9). -/
def Obligations.JfJumpsWhenZero : Prop :=
  JumpLaw 8 Instr.jf fun va => va.toNat = 0

/-- 45_alu.md R150: `add` writes the sum modulo 32768. -/
def Obligations.AddWritesTheSumModulo32768 : Prop :=
  BinaryLaw 9 Instr.add (fun _ => True) fun vb vc v => v.toNat = (vb.toNat + vc.toNat) % 32768

/-- 45_alu.md R151: `mult` writes the product modulo 32768. -/
def Obligations.MultWritesTheProductModulo32768 : Prop :=
  BinaryLaw 10 Instr.mult (fun _ => True) fun vb vc v => v.toNat = (vb.toNat * vc.toNat) % 32768

/-- 45_alu.md R152: `mod` writes the `r` with `0 <= r < vc` and `vb = q*vc + r`; a zero divisor fails with
`ArithmeticError` after the sources are resolved and before the destination is looked at. -/
def Obligations.ModWritesTheRemainder : Prop :=
  BinaryLaw 11 Instr.mod (fun vc => vc.toNat ≠ 0) (fun vb vc v =>
    v.toNat < vc.toNat ∧ ∃ q : Nat, vb.toNat = q * vc.toNat + v.toNat) ∧
  ∀ (s : State) (a0 : Cell), Running s a0 → ∀ a b c vb vc, operandValue s b = some vb →
    operandValue s c = some vc → vc.toNat = 0 → Raises (exec (.mod a b c) s) .arithmeticError 0

/-- 45_alu.md R153: bit `i` of the result of `and` is the and of the sources' bits `i`, for `i` from 0 to 14. -/
def Obligations.AndIsBitwise : Prop :=
  BinaryLaw 12 Instr.and (fun _ => True) fun vb vc v =>
    ∀ i : Nat, i < 15 → v.getLsbD i = (vb.getLsbD i && vc.getLsbD i)

/-- 45_alu.md R154: bit `i` of the result of `or` is the or of the sources' bits `i`, for `i` from 0 to 14. -/
def Obligations.OrIsBitwise : Prop :=
  BinaryLaw 13 Instr.or (fun _ => True) fun vb vc v =>
    ∀ i : Nat, i < 15 → v.getLsbD i = (vb.getLsbD i || vc.getLsbD i)

/-- 45_alu.md R155: the result of `not` is `32767 - vb`, and its bit `i` is the complement of the source's bit `i`. -/
def Obligations.NotIsTheComplement : Prop :=
  UnaryLaw 14 Instr.not fun vb v =>
    v.toNat = 32767 - vb.toNat ∧ ∀ i : Nat, i < 15 → v.getLsbD i = !vb.getLsbD i

/-- `rmem` copies the cell at the address its source denotes into the destination register. That a cell of 32768 or more
fails with `InvalidValue` before the destination is looked at is the spec's own inference (46_memory_access.md R170
"[derived: from rule R67 of 30_encoding.md and rule R41 of 20_memory.md]") and decision D22. -/
def Obligations.RmemLoadsACell : Prop :=
  (∀ a b, encode (.rmem a b) = [15, a.toCell, b.toCell]) ∧
  ∀ (s : State) (a0 : Cell), Running s a0 →
    (∀ r b addr, operandValue s b = some addr → (s.mem.read addr.toNat).toNat < 32768 →
      WritesOnly (exec (.rmem (.reg r) b) s) s r
        (fun v => v.toNat = (s.mem.read addr.toNat).toNat) (a0 + 3)) ∧
    (∀ a w, Raises (exec (.rmem a (.invalid w)) s) .outOfRange w.toNat) ∧
    (∀ a b addr, operandValue s b = some addr → 32768 ≤ (s.mem.read addr.toNat).toNat →
      Raises (exec (.rmem a b) s) .invalidValue (s.mem.read addr.toNat).toNat) ∧
    (∀ x b addr, operandValue s b = some addr → (s.mem.read addr.toNat).toNat < 32768 →
      Raises (exec (.rmem (.lit x) b) s) .immutableTarget x.toNat) ∧
    (∀ w b addr, operandValue s b = some addr → (s.mem.read addr.toNat).toNat < 32768 →
      Raises (exec (.rmem (.invalid w) b) s) .outOfRange w.toNat)

/-- 46_memory_access.md R171: `wmem` stores the second source's Word into the cell at the address the first denotes; the
cell is below 32768, every other cell reads as before and no register changes; the faults are `OutOfRange` of `a`, then
of `b`. Memory is in canonical form, which every step keeps. -/
def Obligations.WmemStoresACell : Prop :=
  (∀ a b, encode (.wmem a b) = [16, a.toCell, b.toCell]) ∧
  ∀ (s : State) (a0 : Cell), Running s a0 →
    (∀ a b addr v, s.mem.wf = true → operandValue s a = some addr → operandValue s b = some v →
      ∃ t, exec (.wmem a b) s = .next t ∧
        (t.mem.read addr.toNat).toNat = v.toNat ∧ (t.mem.read addr.toNat).toNat < 32768 ∧
        (∀ k : Nat, k ≠ addr.toNat → t.mem.read k = s.mem.read k) ∧
        t.pc = .running (a0 + 3) ∧ t.fault = none ∧ KeepsRegs s t ∧ t.stack = s.stack ∧
        t.inbuf = s.inbuf ∧ t.out = s.out) ∧
    (∀ w b, Raises (exec (.wmem (.invalid w) b) s) .outOfRange w.toNat) ∧
    (∀ a addr w, operandValue s a = some addr →
      Raises (exec (.wmem a (.invalid w)) s) .outOfRange w.toNat)

/-- `call` pushes the address after its operand and goes to the target. `StackOverflow` at a finite depth is the spec's
own decision D4 (10_state.md R19; log entry 4); that a `call` at 32766 pushes 32768 is its decision D3. -/
def Obligations.CallPushesTheReturnAddress : Prop :=
  (∀ a, encode (.call a) = [17, a.toCell]) ∧
  ∀ (s : State) (a0 : Cell), Running s a0 →
    (∀ a v, operandValue s a = some v → s.cfg.stackDepth ≠ some s.stack.length →
      ∃ t, exec (.call a) s = .next t ∧ t.stack = (a0 + 2) :: s.stack ∧
        t.pc = .running (v.setWidth 16) ∧ t.fault = none ∧ KeepsRegs s t ∧ KeepsMem s t ∧
        t.inbuf = s.inbuf ∧ t.out = s.out) ∧
    (∀ w, Raises (exec (.call (.invalid w)) s) .outOfRange w.toNat) ∧
    (∀ a v, operandValue s a = some v → s.cfg.stackDepth = some s.stack.length →
      Raises (exec (.call a) s) .stackOverflow 0)

/-- 47_call_ret.md R181: `ret` removes the top cell and goes to the address it holds, unchecked (a popped 32768 commits, and
the next step fails with `FetchOutOfBounds`); on an empty stack it does exactly what `halt` does, and it never raises. -/
def Obligations.RetPopsOrHalts : Prop :=
  encode .ret = [18] ∧
  ∀ (s : State) (a0 : Cell), Running s a0 →
    (∀ c rest, s.stack = c :: rest →
      ∃ t, exec .ret s = .next t ∧ t.pc = .running c ∧ t.stack = rest ∧ t.fault = none ∧
        KeepsRegs s t ∧ KeepsMem s t ∧ t.inbuf = s.inbuf ∧ t.out = s.out ∧
        (c.toNat = 32768 → Raises (step t) .fetchOutOfBounds 32768)) ∧
    (s.stack = [] → exec .ret s = exec .halt s ∧
      ∃ t, exec .ret s = .next t ∧ t.pc = .halted ∧ t.fault = none ∧ t.stack = [] ∧
        t.steps = s.steps + 1 ∧ KeepsRegs s t ∧ KeepsMem s t ∧ t.inbuf = s.inbuf ∧ t.out = s.out)

/-- `out` appends `Emit(c)` to the output, and `Flush()` after it exactly when `c` is the newline. That the newline is
code point 10 is the spec's own decision D15 (48_io.md R191; log entry 11). -/
def Obligations.OutEmitsItsOperand : Prop :=
  (∀ a, encode (.out a) = [19, a.toCell]) ∧
  ∀ (s : State) (a0 : Cell), Running s a0 →
    (∀ a c, operandValue s a = some c →
      ∃ t, exec (.out a) s = .next t ∧
        (c.toNat = 10 → t.out = s.out ++ [.emit c, .flush]) ∧
        (c.toNat ≠ 10 → t.out = s.out ++ [.emit c]) ∧
        t.pc = .running (a0 + 2) ∧ t.fault = none ∧ KeepsRegs s t ∧ t.stack = s.stack ∧ KeepsMem s t ∧
        t.inbuf = s.inbuf) ∧
    (∀ w, Raises (exec (.out (.invalid w)) s) .outOfRange w.toNat)

/-- `in` takes one character: from the line buffer if it has one, else from the line the source answers, of which the
rest stays in the buffer. Without a line it fails with `EndOfInput` whatever the operand; a code point of 32768 or more
fails with `InvalidValue` before the destination is looked at; on a failure after a pull the whole line stays. The line
protocol and the code-point range are the spec's own decisions D16 and D17 (48_io.md R194, R195); the answers are the
model's free values (log entry 5). -/
def Obligations.InConsumesOneCharacter : Prop :=
  (∀ a, encode (.input a) = [20, a.toCell]) ∧
  ∀ (s : State) (a0 : Cell), Running s a0 →
    ∀ line : List CodePoint,
      ((s.inbuf ≠ [] ∧ line = s.inbuf) ∨ (s.inbuf = [] ∧ line = (nextAnswer s).getD [])) →
      (∀ r ch rest, line = ch :: rest → ch.val < 32768 →
        ∃ t v, exec (.input (.reg r)) s = .next t ∧ v.toNat = ch.val ∧ SetsReg s t r v ∧ t.inbuf = rest ∧
          t.pc = .running (a0 + 2) ∧ t.fault = none ∧ t.stack = s.stack ∧ KeepsMem s t ∧ t.out = s.out) ∧
      (∀ a, line = [] → Raises (exec (.input a) s) .endOfInput 0) ∧
      (∀ a ch rest, line = ch :: rest → 32768 ≤ ch.val →
        Raises (exec (.input a) s) .invalidValue ch.val) ∧
      (∀ x ch rest, line = ch :: rest → ch.val < 32768 →
        Raises (exec (.input (.lit x)) s) .immutableTarget x.toNat) ∧
      (∀ w ch rest, line = ch :: rest → ch.val < 32768 →
        Raises (exec (.input (.invalid w)) s) .outOfRange w.toNat) ∧
      (∀ a t, exec (.input a) s = .next t → t.fault ≠ none → t.inbuf = line)

/-- 41_halt_noop.md R111: `noop` advances `pc` by one, counts a step and changes no register, stack cell, memory cell,
line-buffer character or output; at address 32767 it commits, and the next step fails with `FetchOutOfBounds`. -/
def Obligations.NoopOnlyAdvances : Prop :=
  encode .noop = [21] ∧
  ∀ (s : State) (a0 : Cell), Running s a0 →
    ∃ t, exec .noop s = .next t ∧ t.pc = .running (a0 + 1) ∧ t.fault = none ∧ t.steps = s.steps + 1 ∧
      KeepsRegs s t ∧ t.stack = s.stack ∧ KeepsMem s t ∧ t.inbuf = s.inbuf ∧ t.out = s.out ∧
      (a0.toNat = 32767 → Raises (step t) .fetchOutOfBounds 32768)

/-! ## Frames -/

/-- Whatever an instruction does, when it gives a next state every register is unchanged but the one its destination
operand names; an instruction without a destination register (`halt`, `push`, `jmp`, `jt`, `jf`, `wmem`, `call`, `ret`,
`out`, `noop`) changes none. -/
def Obligations.OnlyTheDestinationRegisterChanges : Prop :=
  ∀ (i : Instr) (s t : State), exec i s = .next t →
    ∀ q : RegIx, destination i ≠ some q → t.regs[q] = s.regs[q]

/-- Whatever an instruction does, when it gives a next state every memory cell reads as before but the one cell `wmem`
stores to, whose address is what its first operand resolves to; a `wmem` whose first operand does not resolve stores
nothing. Memory is in canonical form, which every step keeps. -/
def Obligations.OnlyTheStoredCellChanges : Prop :=
  (∀ (i : Instr) (s t : State), exec i s = .next t → (∀ a b, i ≠ .wmem a b) → t.mem = s.mem) ∧
  (∀ (a b : Operand) (s t : State), s.mem.wf = true → exec (.wmem a b) s = .next t →
    (∀ addr : Word, rdOp s a = .ok addr → ∀ k : Nat, k ≠ addr.toNat → t.mem.read k = s.mem.read k) ∧
    (∀ r : Raise, rdOp s a = .error r → t.mem = s.mem))

/-- Only `push`, `pop`, `call` and `ret` change the stack, and they leave every cell below the top as it was (10_state.md
R18, R19). -/
def Obligations.OnlyStackInstructionsChangeTheStack : Prop :=
  ∀ (i : Instr) (s t : State), exec i s = .next t →
    ((∀ a, i ≠ .push a) → (∀ a, i ≠ .pop a) → (∀ a, i ≠ .call a) → i ≠ .ret → t.stack = s.stack) ∧
    (t.stack = s.stack ∨ (∃ c, t.stack = c :: s.stack) ∨ (∃ c, s.stack = c :: t.stack))

/-- Only `in` changes the line buffer and contacts the source, only `out` changes the output, and no instruction changes
the parameters (10_state.md R10, R21, R22; the fields of the source and the parameters are the model's own, log entries 3
to 5). -/
def Obligations.OnlyInAndOutTouchTheEnvironment : Prop :=
  ∀ (i : Instr) (s t : State), exec i s = .next t →
    ((∀ a, i ≠ .input a) → t.inbuf = s.inbuf ∧ t.source = s.source ∧ t.pulls = s.pulls) ∧
    ((∀ a, i ≠ .out a) → t.out = s.out) ∧
    t.cfg = s.cfg

/-! ## Whole-machine rules -/

/-- What reset leaves: every memory cell reads 0, as the spec states. The other values are the spec's own decisions D5
and D6 (10_state.md R32): `pc` 0, every register 0 (log entry 3), stack, line buffer and output empty, no fault, no step
counted, an unbounded stack (log entry 4). -/
def Obligations.ResetState : Prop :=
  (∀ k : Nat, State.reset.mem.read k = 0) ∧ (∀ q : RegIx, State.reset.regs[q] = 0) ∧
  State.reset.pc = .running 0 ∧ State.reset.stack = [] ∧ State.reset.inbuf = [] ∧
  State.reset.fault = none ∧ State.reset.steps = 0 ∧ State.reset.out = [] ∧
  State.reset.cfg.stackDepth = none

/-- The invariant holds at reset. -/
def Obligations.InvariantHoldsAtReset : Prop := State.reset.Inv

/-- Every step keeps the invariant: memory in canonical form, `pc` and the stack cells in `[0, 32768]`, the stack no
deeper than its depth, and a latched fault that stands at the `pc` it left and records a legal value. -/
def Obligations.StepKeepsTheInvariant : Prop :=
  ∀ s t : State, s.Inv → step s = .next t → t.Inv

/-- `pc` becomes `HALTED` only by `halt`, or by `ret` on an empty stack, and then without a fault: a run ends well by
nothing else (10_state.md R17, 70_reset_and_hazards.md R248). -/
def Obligations.OnlyHaltAndEmptyRetHalt : Prop :=
  ∀ s t : State, step s = .next t → t.pc = .halted →
    EndedWell t ∧ ∃ a0 : Cell, Running s a0 ∧ a0.toNat < 32768 ∧
      ((s.mem.read a0.toNat).toNat = 0 ∨ ((s.mem.read a0.toNat).toNat = 18 ∧ s.stack = []))

/-- A step changes memory only if the opcode under `pc` is `wmem`'s, and a cell it changes then holds a value below 32768
(20_memory.md R47, 10_state.md R29). -/
def Obligations.OnlyWmemChangesMemory : Prop :=
  ∀ s t : State, s.mem.wf = true → step s = .next t → ∀ k : Nat, t.mem.read k ≠ s.mem.read k →
    (t.mem.read k).toNat < 32768 ∧ k < 32768 ∧
    ∃ a0 : Cell, Running s a0 ∧ (s.mem.read a0.toNat).toNat = 16

/-- The output only grows, at its end, and only by a committed `out`: one `Emit`, followed by a `Flush` exactly after the
newline (10_state.md R22, 48_io.md R191; that the newline is 10 is the spec's decision D15). -/
def Obligations.OutputOnlyGrows : Prop :=
  ∀ s t : State, step s = .next t →
    t.out = s.out ∨
    ∃ (a0 : Cell) (c : Word), Running s a0 ∧ (s.mem.read a0.toNat).toNat = 19 ∧ t.fault = none ∧
      t.out = s.out ++ .emit c :: (if c.toNat = 10 then [.flush] else [])

/-- "call then ret returns the instruction pointer to exactly the address immediately following the call instruction and
its operand" (47_call_ret.md R182), with the stack, registers and memory as before the `call`. The stack has room. -/
def Obligations.CallThenRetReturnsBehindTheCall : Prop :=
  ∀ (s : State) (a0 : Cell) (a : Operand) (v : Word), Running s a0 → operandValue s a = some v →
    s.cfg.stackDepth ≠ some s.stack.length →
    ∃ t u, exec (.call a) s = .next t ∧ exec .ret t = .next u ∧ u.pc = .running (a0 + 2) ∧
      u.fault = none ∧ u.stack = s.stack ∧ KeepsRegs s u ∧ KeepsMem s u

/-- After `push a` and `pop r` the stack is as before and the register holds what the operand denoted (42_move_stack.md,
corner cases of `pop`). The stack has room. -/
def Obligations.PopAfterPushRestoresTheStack : Prop :=
  ∀ (s : State) (a0 : Cell) (a : Operand) (r : RegIx) (v : Word), Running s a0 → operandValue s a = some v →
    s.cfg.stackDepth ≠ some s.stack.length →
    ∃ t u, exec (.push a) s = .next t ∧ exec (.pop (.reg r)) t = .next u ∧ u.fault = none ∧
      u.stack = s.stack ∧ SetsReg s u r v ∧ KeepsMem s u ∧ u.pc = .running (a0 + 4)

/-- A load returns the value of the most recent committed store to its cell (20_memory.md R49 (c)): `rmem` after `wmem`
at the address both operands denote. Memory is in canonical form. -/
def Obligations.RmemAfterWmemReturnsTheValue : Prop :=
  ∀ (s : State) (a0 : Cell) (a b c : Operand) (r : RegIx) (addr v : Word), Running s a0 → s.mem.wf = true →
    operandValue s a = some addr → operandValue s b = some v → operandValue s c = some addr →
    ∃ t u, exec (.wmem a b) s = .next t ∧ exec (.rmem (.reg r) c) t = .next u ∧ u.fault = none ∧
      SetsReg s u r v ∧ u.pc = .running (a0 + 6)

/-- Seen by the program, the input is one stream: a committed `in` takes its first character, and an `in` that fails for
any reason but the end of input leaves the stream as it was, though a line was pulled (48_io.md R193, R195). The stream
is the part of the input that the model has lined up (log entry 5); that a failing `in` keeps it is the spec's own
decision D17. -/
def Obligations.InConsumesTheStreamInOrder : Prop :=
  ∀ (a : Operand) (s t : State), s.inbuf ≠ [] ∨ s.source ≠ [] → exec (.input a) s = .next t →
    (t.fault = none → ∃ (r : RegIx) (ch : CodePoint), a = .reg r ∧ (t.regs[r]).toNat = ch.val ∧
      inputStream s = ch :: inputStream t) ∧
    (∀ rec, t.fault = some rec → rec.kind ≠ .endOfInput → inputStream t = inputStream s)

/-! ## The host's operations -/

/-- A run stopped by its budget is paused: going on with a further budget is the same as one run with both together. The
reading of the budget is the spec's own decision D14 (40_step.md R99). -/
def Obligations.BudgetStopIsAPause : Prop :=
  ∀ (m n : Nat) (s : State), (runFor m s).2 = .budget → runFor (m + n) s = runFor n (runFor m s).1

/-- Why a run stopped is true of the state it leaves, and it never commits more steps than its budget (40_step.md R99,
70_reset_and_hazards.md R248; the counter and the budget are the spec's own decisions D13 and D14). -/
def Obligations.RunStopsForATrueReason : Prop :=
  ∀ (n : Nat) (s : State),
    ((runFor n s).2 = .halted → EndedWell (runFor n s).1) ∧
    (∀ r, (runFor n s).2 = .fault r → (runFor n s).1.fault = some r) ∧
    ((runFor n s).2 = .budget → (∃ a0, Running (runFor n s).1 a0) ∧ (runFor n s).1.steps = s.steps + n) ∧
    s.steps ≤ (runFor n s).1.steps ∧ (runFor n s).1.steps ≤ s.steps + n

/-- A run returns at most one result, with every budget: with `Unbounded` the step at which it stops does not matter. -/
def Obligations.RunResultIsUnique : Prop :=
  ∀ (b : Budget) (s : State) (x y : State × StopReason), Runs b s x → Runs b s y → x = y

/-- `Reset()` in any condition leaves a running machine at address 0 with memory all zero, registers at `REG_RESET`,
stack, line buffer and output empty, no fault and no step counted (the spec's own decisions D5 and D6: 10_state.md R32,
70_reset_and_hazards.md R240); the parameters stay. -/
def Obligations.ResetOperationClearsTheMachine : Prop :=
  ∀ s : State, Running (hostReset s) 0 ∧ (∀ k : Nat, (hostReset s).mem.read k = 0) ∧
    (hostReset s).regs = s.cfg.regReset ∧ (hostReset s).stack = [] ∧ (hostReset s).inbuf = [] ∧
    (hostReset s).out = [] ∧ (hostReset s).steps = 0 ∧ (hostReset s).cfg = s.cfg

/-- An image of at most 32768 words loaded after a reset stands in memory word by word from address 0, and every higher
address reads 0 (20_memory.md R52); a longer one is refused, and so is any load after the first step (the spec's own
decisions D19 and D21). -/
def Obligations.ImageLoadsFromAddressZero : Prop :=
  (∀ (s : State) (ws : List Cell), ws.length ≤ 32768 →
    ∃ t, loadImage ws (hostReset s) = .next t ∧ Running t 0 ∧
      ∀ k : Nat, t.mem.read k = (ws[k]?).getD 0) ∧
  (∀ (s : State) (ws : List Cell), 32768 < ws.length → loadImage ws s = .refused .imageTooLong) ∧
  (∀ (s : State) (ws : List Cell), ws.length ≤ 32768 → s.steps ≠ 0 →
    loadImage ws s = .refused .loadAfterFirstStep)

/-- The bytes of an image are its words in little-endian order: the low byte of each word first (20_memory.md R53); an odd
number of bytes is no image (the spec's own decision D19). -/
def Obligations.ImageBytesAreLittleEndian : Prop :=
  (∀ ws : List Cell, imageWords (ws.flatMap fun w => [w.extractLsb' 0 8, w.extractLsb' 8 8]) = some ws) ∧
  (∀ (s : State) (bytes : List (BitVec 8)), bytes.length % 2 = 1 →
    loadImageBytes bytes s = .refused .imageOddLength)
end

