-- ==== Sys2Proof/Laws/State.lean ====
section
/-!
SUPPORT. One lemma per field per update of the state, true by unfolding the update once: `commit`, `latch`, `pullLine`,
`refill`, and the fields of `State.reset`.
-/

namespace Sys2Proof.Machine

@[simp] theorem commit_regs (s : State) (n : Cell) (e : Effects) : (commit s n e).regs = applyReg s.regs e.reg := rfl
@[simp] theorem commit_pc (s : State) (n : Cell) (e : Effects) : (commit s n e).pc = e.pc.getD (.running n) := rfl
@[simp] theorem commit_stack (s : State) (n : Cell) (e : Effects) :
    (commit s n e).stack = applyStack s.stack e.stack := rfl
@[simp] theorem commit_mem (s : State) (n : Cell) (e : Effects) : (commit s n e).mem = applyMem s.mem e.mem := rfl
@[simp] theorem commit_inbuf (s : State) (n : Cell) (e : Effects) :
    (commit s n e).inbuf = if e.consume then s.inbuf.tail else s.inbuf := rfl
@[simp] theorem commit_fault (s : State) (n : Cell) (e : Effects) : (commit s n e).fault = s.fault := rfl
@[simp] theorem commit_steps (s : State) (n : Cell) (e : Effects) : (commit s n e).steps = s.steps + 1 := rfl
@[simp] theorem commit_out (s : State) (n : Cell) (e : Effects) : (commit s n e).out = s.out ++ emitted e.emit := rfl
@[simp] theorem commit_source (s : State) (n : Cell) (e : Effects) : (commit s n e).source = s.source := rfl
@[simp] theorem commit_pulls (s : State) (n : Cell) (e : Effects) : (commit s n e).pulls = s.pulls := rfl
@[simp] theorem commit_cfg (s : State) (n : Cell) (e : Effects) : (commit s n e).cfg = s.cfg := rfl

@[simp] theorem latch_regs (s : State) (a : Cell) (r : Raise) : (latch s a r).regs = s.regs := rfl
@[simp] theorem latch_pc (s : State) (a : Cell) (r : Raise) : (latch s a r).pc = s.pc := rfl
@[simp] theorem latch_stack (s : State) (a : Cell) (r : Raise) : (latch s a r).stack = s.stack := rfl
@[simp] theorem latch_mem (s : State) (a : Cell) (r : Raise) : (latch s a r).mem = s.mem := rfl
@[simp] theorem latch_inbuf (s : State) (a : Cell) (r : Raise) : (latch s a r).inbuf = s.inbuf := rfl
@[simp] theorem latch_fault (s : State) (a : Cell) (r : Raise) :
    (latch s a r).fault = some { kind := r.kind, addr := a, info := r.info } := rfl
@[simp] theorem latch_steps (s : State) (a : Cell) (r : Raise) : (latch s a r).steps = s.steps := rfl
@[simp] theorem latch_out (s : State) (a : Cell) (r : Raise) : (latch s a r).out = s.out := rfl
@[simp] theorem latch_source (s : State) (a : Cell) (r : Raise) : (latch s a r).source = s.source := rfl
@[simp] theorem latch_pulls (s : State) (a : Cell) (r : Raise) : (latch s a r).pulls = s.pulls := rfl
@[simp] theorem latch_cfg (s : State) (a : Cell) (r : Raise) : (latch s a r).cfg = s.cfg := rfl

@[simp] theorem pullLine_regs (s : State) : (pullLine s).regs = s.regs := rfl
@[simp] theorem pullLine_pc (s : State) : (pullLine s).pc = s.pc := rfl
@[simp] theorem pullLine_stack (s : State) : (pullLine s).stack = s.stack := rfl
@[simp] theorem pullLine_mem (s : State) : (pullLine s).mem = s.mem := rfl
@[simp] theorem pullLine_inbuf (s : State) : (pullLine s).inbuf = (nextAnswer s).getD [] := rfl
@[simp] theorem pullLine_fault (s : State) : (pullLine s).fault = s.fault := rfl
@[simp] theorem pullLine_steps (s : State) : (pullLine s).steps = s.steps := rfl
@[simp] theorem pullLine_out (s : State) : (pullLine s).out = s.out := rfl
@[simp] theorem pullLine_source (s : State) : (pullLine s).source = s.source.tail := rfl
@[simp] theorem pullLine_pulls (s : State) : (pullLine s).pulls = s.pulls + 1 := rfl
@[simp] theorem pullLine_cfg (s : State) : (pullLine s).cfg = s.cfg := rfl

/-- A non-empty line buffer is left alone (48_io.md R193). -/
theorem refill_of_ne_nil {s : State} (h : s.inbuf ≠ []) : refill s = s := by
  simp [refill, h]

/-- An empty line buffer is refilled by one pull (48_io.md R192). -/
theorem refill_of_nil {s : State} (h : s.inbuf = []) : refill s = pullLine s := by
  simp [refill, h]

/-- `refill` either does nothing or pulls one line. -/
theorem refill_cases (s : State) :
    (s.inbuf ≠ [] ∧ refill s = s) ∨ (s.inbuf = [] ∧ refill s = pullLine s) := by
  by_cases h : s.inbuf = []
  · exact .inr ⟨h, refill_of_nil h⟩
  · exact .inl ⟨h, refill_of_ne_nil h⟩

@[simp] theorem refill_regs (s : State) : (refill s).regs = s.regs := by unfold refill; split <;> rfl
@[simp] theorem refill_pc (s : State) : (refill s).pc = s.pc := by unfold refill; split <;> rfl
@[simp] theorem refill_stack (s : State) : (refill s).stack = s.stack := by unfold refill; split <;> rfl
@[simp] theorem refill_mem (s : State) : (refill s).mem = s.mem := by unfold refill; split <;> rfl
@[simp] theorem refill_fault (s : State) : (refill s).fault = s.fault := by unfold refill; split <;> rfl
@[simp] theorem refill_steps (s : State) : (refill s).steps = s.steps := by unfold refill; split <;> rfl
@[simp] theorem refill_out (s : State) : (refill s).out = s.out := by unfold refill; split <;> rfl
@[simp] theorem refill_cfg (s : State) : (refill s).cfg = s.cfg := by unfold refill; split <;> rfl

@[simp] theorem reset_regs : State.reset.regs = Vector.replicate 8 0 := rfl
@[simp] theorem reset_pc : State.reset.pc = .running 0 := rfl
@[simp] theorem reset_stack : State.reset.stack = [] := rfl
@[simp] theorem reset_mem : State.reset.mem = [] := rfl
@[simp] theorem reset_inbuf : State.reset.inbuf = [] := rfl
@[simp] theorem reset_fault : State.reset.fault = none := rfl
@[simp] theorem reset_steps : State.reset.steps = 0 := rfl
@[simp] theorem reset_out : State.reset.out = [] := rfl
@[simp] theorem reset_cfg : State.reset.cfg = Config.default := rfl

@[simp] theorem applyReg_none (x : Vector Word 8) : applyReg x none = x := rfl
@[simp] theorem applyReg_some (x : Vector Word 8) (r : RegIx) (v : Word) :
    applyReg x (some (r, v)) = x.set r v := rfl
@[simp] theorem applyStack_keep (x : List Cell) : applyStack x .keep = x := rfl
@[simp] theorem applyStack_push (x : List Cell) (v : Cell) : applyStack x (.push v) = v :: x := rfl
@[simp] theorem applyStack_drop (x : List Cell) : applyStack x .drop = x.tail := rfl
@[simp] theorem applyMem_none (m : Memory) : applyMem m none = m := rfl
@[simp] theorem applyMem_some (m : Memory) (a : Word) (v : Cell) :
    applyMem m (some (a, v)) = m.write a.toNat v := rfl
@[simp] theorem emitted_none : emitted none = [] := rfl

/-- Reading the register just written (10_state.md R11). -/
@[simp] theorem regs_set_self (x : Vector Word 8) (r : RegIx) (v : Word) : (x.set r v)[r] = v := by
  simp

/-- Reading any other register after a register write (10_state.md R11). -/
theorem regs_set_other (x : Vector Word 8) {r q : RegIx} (v : Word) (h : q ≠ r) : (x.set r v)[q] = x[q] := by
  have : r.val ≠ q.val := fun e => h (Fin.ext e.symm)
  simp [this]

end Sys2Proof.Machine
end

