-- ==== Sys2Proof/Laws/Word.lean ====
section
/-!
SUPPORT. The named constants as numerals (00_scope.md R5), for `simp` and `omega`.
-/

namespace Sys2Proof

@[simp] theorem modulus_eq : modulus = 32768 := rfl
@[simp] theorem memWords_eq : memWords = 32768 := rfl
@[simp] theorem regBase_eq : regBase = 32768 := rfl
@[simp] theorem litLimit_eq : litLimit = 32776 := rfl

/-- The unsigned value of a Word is below the modulus (00_scope.md R7). -/
theorem word_lt (v : Word) : v.toNat < 32768 := v.isLt

/-- A Word widened to a cell keeps its value. -/
@[simp] theorem word_setWidth_toNat (v : Word) : (v.setWidth 16).toNat = v.toNat := by
  have := word_lt v
  simp
  omega

end Sys2Proof
end

