-- ==== Sys2Proof/Laws/Ops.lean ====
section
/-!
SUPPORT. One lemma per shared operation that says everything it can do: the entry conditions, `perform`, operand
resolution, the stack test.
-/

namespace Sys2Proof.Machine

/-- The entry test lets exactly the running machine pass (40_step.md R90, R101). -/
theorem entry_ok_iff {s : State} {a0 : Cell} : entry s = .ok a0 ↔ s.fault = none ∧ s.pc = .running a0 := by
  unfold entry
  cases hf : s.fault with
  | some r => simp
  | none => cases hp : s.pc <;> simp

/-- What the entry test answers when it refuses. -/
theorem entry_error_iff {s : State} {f : Fault} :
    entry s = .error f ↔
      (∃ r, s.fault = some r ∧ f = .latched r) ∨ (s.fault = none ∧ s.pc = .halted ∧ f = .alreadyHalted) := by
  unfold entry
  cases hf : s.fault with
  | some r => simp [eq_comm]
  | none => cases hp : s.pc <;> simp [eq_comm]

/-- `perform` on a running machine whose action raises. -/
theorem perform_raises {s : State} {a0 : Cell} {n : Nat} {act : Cell → Except Raise Effects} {r : Raise}
    (hf : s.fault = none) (hp : s.pc = .running a0) (h : act (nextAddr a0 n) = .error r) :
    perform s n act = .next (latch s a0 r) := by
  simp [perform, entry, hf, hp, h]

/-- `perform` on a running machine whose action succeeds. -/
theorem perform_commits {s : State} {a0 : Cell} {n : Nat} {act : Cell → Except Raise Effects} {e : Effects}
    (hf : s.fault = none) (hp : s.pc = .running a0) (h : act (nextAddr a0 n) = .ok e) :
    perform s n act = .next (commit s (nextAddr a0 n) e) := by
  simp [perform, entry, hf, hp, h]

/-- Everything `perform` can do when it answers a next state: the machine was running, and the action raised and was
latched, or asked for effects and they were committed. -/
theorem perform_next {s t : State} {n : Nat} {act : Cell → Except Raise Effects} (h : perform s n act = .next t) :
    ∃ a0, s.fault = none ∧ s.pc = .running a0 ∧
      ((∃ r, act (nextAddr a0 n) = .error r ∧ t = latch s a0 r) ∨
       (∃ e, act (nextAddr a0 n) = .ok e ∧ t = commit s (nextAddr a0 n) e)) := by
  unfold perform at h
  split at h
  · cases h
  · next a0 he =>
    obtain ⟨hf, hp⟩ := entry_ok_iff.1 he
    refine ⟨a0, hf, hp, ?_⟩
    cases ha : act (nextAddr a0 n) with
    | error r => simp only [ha] at h; cases h; exact .inl ⟨r, rfl, rfl⟩
    | ok e => simp only [ha] at h; cases h; exact .inr ⟨e, rfl, rfl⟩

@[simp] theorem rdOp_lit (s : State) (v : Word) : rdOp s (.lit v) = .ok v := rfl
@[simp] theorem rdOp_reg (s : State) (r : RegIx) : rdOp s (.reg r) = .ok s.regs[r] := rfl
@[simp] theorem rdOp_invalid (s : State) (w : Cell) :
    rdOp s (.invalid w) = .error { kind := .outOfRange, info := BitVec.ofNat 21 w.toNat } := rfl

/-- A source operand fails exactly when it is invalid, and then with `OutOfRange` of its word (30_encoding.md R66). -/
theorem rdOp_error {s : State} {o : Operand} {r : Raise} (h : rdOp s o = .error r) :
    ∃ w, o = .invalid w ∧ r = { kind := .outOfRange, info := BitVec.ofNat 21 w.toNat } := by
  cases o with
  | lit v => cases h
  | reg q => cases h
  | invalid w => cases h; exact ⟨w, rfl, rfl⟩

/-- A destination write succeeds exactly on a register reference and a Word (30_encoding.md R67). -/
theorem wrOp_reg {v : Nat} (r : RegIx) (h : v < 32768) : wrOp (.reg r) v = .ok (r, BitVec.ofNat 15 v) := by
  have : ¬ modulus ≤ v := by rw [modulus_eq]; omega
  simp [wrOp, this]

theorem wrOp_lit {v : Nat} (x : Word) (h : v < 32768) :
    wrOp (.lit x) v = .error { kind := .immutableTarget, info := BitVec.ofNat 21 x.toNat } := by
  have : ¬ modulus ≤ v := by rw [modulus_eq]; omega
  simp [wrOp, raise, this]

theorem wrOp_invalid {v : Nat} (w : Cell) (h : v < 32768) :
    wrOp (.invalid w) v = .error { kind := .outOfRange, info := BitVec.ofNat 21 w.toNat } := by
  have : ¬ modulus ≤ v := by rw [modulus_eq]; omega
  simp [wrOp, raise, this]

theorem wrOp_tooLarge {v : Nat} (a : Operand) (h : 32768 ≤ v) :
    wrOp a v = .error { kind := .invalidValue, info := BitVec.ofNat 21 v } := by
  have : modulus ≤ v := h
  simp [wrOp, raise, this]

/-- What a successful destination write says. -/
theorem wrOp_ok {a : Operand} {v : Nat} {w : RegIx × Word} (h : wrOp a v = .ok w) :
    v < 32768 ∧ a = .reg w.1 ∧ w.2 = BitVec.ofNat 15 v := by
  by_cases hv : v < 32768
  · cases a with
    | lit x => rw [wrOp_lit x hv] at h; cases h
    | reg r => rw [wrOp_reg r hv] at h; cases h; exact ⟨hv, rfl, rfl⟩
    | invalid x => rw [wrOp_invalid x hv] at h; cases h
  · rw [wrOp_tooLarge a (by omega)] at h; cases h

/-- Everything a failing destination write can raise, in the order of its checks (30_encoding.md R67). -/
theorem wrOp_error {a : Operand} {v : Nat} {r : Raise} (h : wrOp a v = .error r) :
    (32768 ≤ v ∧ r = { kind := .invalidValue, info := BitVec.ofNat 21 v }) ∨
    (v < 32768 ∧ ∃ x, a = .lit x ∧ r = { kind := .immutableTarget, info := BitVec.ofNat 21 x.toNat }) ∨
    (v < 32768 ∧ ∃ w, a = .invalid w ∧ r = { kind := .outOfRange, info := BitVec.ofNat 21 w.toNat }) := by
  by_cases hv : v < 32768
  · cases a with
    | lit x => rw [wrOp_lit x hv] at h; cases h; exact .inr (.inl ⟨hv, x, rfl, rfl⟩)
    | reg q => rw [wrOp_reg q hv] at h; cases h
    | invalid x => rw [wrOp_invalid x hv] at h; cases h; exact .inr (.inr ⟨hv, x, rfl, rfl⟩)
  · rw [wrOp_tooLarge a (by omega)] at h; cases h; exact .inl ⟨by omega, rfl⟩

/-- A push succeeds exactly when the stack is not at its depth (10_state.md R19). -/
theorem pushOp_room {s : State} (v : Cell) (h : s.cfg.stackDepth ≠ some s.stack.length) :
    pushOp s v = .ok (.push v) := by
  simp [pushOp, h]

theorem pushOp_full {s : State} (v : Cell) (h : s.cfg.stackDepth = some s.stack.length) :
    pushOp s v = .error { kind := .stackOverflow, info := 0 } := by
  simp [pushOp, h, raise]

/-- The two things a push can do. -/
theorem pushOp_cases (s : State) (v : Cell) :
    (s.cfg.stackDepth ≠ some s.stack.length ∧ pushOp s v = .ok (.push v)) ∨
    (s.cfg.stackDepth = some s.stack.length ∧ pushOp s v = .error { kind := .stackOverflow, info := 0 }) := by
  by_cases h : s.cfg.stackDepth = some s.stack.length
  · exact .inr ⟨h, pushOp_full v h⟩
  · exact .inl ⟨h, pushOp_room v h⟩

end Sys2Proof.Machine
end

