-- ==== Sys2Proof/Laws/Exec.lean ====
section
/-!
SUPPORT. What an instruction can do, said once: the shapes of action (unary, binary, conditional jump), and then
`exec_next`, the inversion of `exec` on every instruction. Frames and invariants follow from it without unfolding a
meaning again.
-/

namespace Sys2Proof.Machine

/-- The state an action and its fault are taken in: the refilled one for `in`, the state itself otherwise. -/
def actionState (i : Instr) (s : State) : State :=
  match i with
  | .input _ => refill s
  | _ => s

/-- What a committed action of `i` may ask for. -/
structure EffectsOf (i : Instr) (s : State) (next : Cell) (e : Effects) : Prop where
  reg : ∀ r v, e.reg = some (r, v) → destination i = some r
  mem : ∀ a v, e.mem = some (a, v) → v.toNat < 32768 ∧ ∃ oa ob, i = .wmem oa ob ∧ rdOp s oa = .ok a
  stack : e.stack = .keep ∨
    ((i = .ret ∨ ∃ a, i = .pop a) ∧ e.stack = .drop ∧ s.stack ≠ []) ∨
    ((∃ a, i = .push a) ∨ ∃ a, i = .call a) ∧ s.cfg.stackDepth ≠ some s.stack.length ∧
      ∃ v, e.stack = .push v ∧ (v.toNat < 32768 ∨ v = next)
  emit : ∀ c, e.emit = some c → ∃ a, i = .out a
  consume : e.consume = true → ∃ a, i = .input a
  pc : e.pc = none ∨
    (e.pc = some .halted ∧ (i = .halt ∨ (i = .ret ∧ s.stack = []))) ∨
    ∃ a, e.pc = some (.running a) ∧ (a.toNat < 32768 ∨ a ∈ s.stack)

/-- A committed action that only writes its destination register. -/
theorem effectsOf_reg {i : Instr} {s : State} {next : Cell} {w : RegIx × Word} (h : destination i = some w.1) :
    EffectsOf i s next { reg := some w } where
  reg r v e := by cases e; exact h
  mem a v e := by cases e
  stack := .inl rfl
  emit c e := by cases e
  consume e := by cases e
  pc := .inl rfl

/-- A committed action that asks for nothing. -/
theorem effectsOf_nothing (i : Instr) (s : State) (next : Cell) : EffectsOf i s next {} where
  reg r v e := by cases e
  mem a v e := by cases e
  stack := .inl rfl
  emit c e := by cases e
  consume e := by cases e
  pc := .inl rfl

/-- A committed action that only goes to a Word. -/
theorem effectsOf_goto (i : Instr) (s : State) (next : Cell) (t : Word) :
    EffectsOf i s next { pc := some (.running (t.setWidth 16)) } where
  reg r v e := by cases e
  mem a v e := by cases e
  stack := .inl rfl
  emit c e := by cases e
  consume e := by cases e
  pc := .inr (.inr ⟨_, rfl, .inl (by rw [word_setWidth_toNat]; exact word_lt t)⟩)

/-- `OutOfRange` of a well-formed invalid operand records a legal value. -/
theorem info_outOfRange {w : Cell} (h : (Operand.invalid w).WellFormed = true) :
    infoLegal .outOfRange (BitVec.ofNat 21 w.toNat).toNat = true := by
  have h1 : 32776 ≤ w.toNat := by simpa [Operand.WellFormed] using h
  have h2 := w.isLt
  simp [infoLegal]
  omega

/-- A failing source resolution of a well-formed operand records a legal value. -/
theorem rdOp_info {s : State} {o : Operand} {r : Raise} (h : rdOp s o = .error r) (hw : o.WellFormed = true) :
    infoLegal r.kind r.info.toNat = true := by
  obtain ⟨w, rfl, rfl⟩ := rdOp_error h
  exact info_outOfRange hw

/-- A failing destination write of a well-formed operand and a value in the range of code points records a legal value. -/
theorem wrOp_info {a : Operand} {v : Nat} {r : Raise} (h : wrOp a v = .error r) (hw : a.WellFormed = true)
    (hv : v ≤ 1114111) : infoLegal r.kind r.info.toNat = true := by
  rcases wrOp_error h with ⟨h1, rfl⟩ | ⟨_, x, rfl, rfl⟩ | ⟨_, w, rfl, rfl⟩
  · simp [infoLegal, codePointMax]; omega
  · have := word_lt x
    simp [infoLegal]; omega
  · exact info_outOfRange hw

/-- Everything an action `a <- f(b)` can do. -/
theorem unaryOp_next {f : Word → Nat} {a b : Operand} {s t : State} (h : unaryOp f a b s = .next t) :
    ∃ a0, s.fault = none ∧ s.pc = .running a0 ∧
      ((∃ r, t = latch s a0 r ∧
          (rdOp s b = .error r ∨ ∃ vb, rdOp s b = .ok vb ∧ wrOp a (f vb) = .error r)) ∨
       (∃ vb w, rdOp s b = .ok vb ∧ wrOp a (f vb) = .ok w ∧
          t = commit s (nextAddr a0 2) { reg := some w })) := by
  obtain ⟨a0, hf, hp, hx⟩ := perform_next h
  refine ⟨a0, hf, hp, ?_⟩
  cases hb : rdOp s b with
  | error r =>
    rcases hx with ⟨r', hr, rfl⟩ | ⟨e, he, _⟩
    · rw [hb] at hr; cases hr; exact .inl ⟨r, rfl, .inl rfl⟩
    · rw [hb] at he; cases he
  | ok vb =>
    cases hw : wrOp a (f vb) with
    | error r =>
      rcases hx with ⟨r', hr, rfl⟩ | ⟨e, he, _⟩
      · simp only [hb, hw, Except.bind, bind] at hr; cases hr; exact .inl ⟨r, rfl, .inr ⟨vb, rfl, hw⟩⟩
      · simp only [hb, hw, Except.bind, bind] at he; cases he
    | ok w =>
      rcases hx with ⟨r', hr, _⟩ | ⟨e, he, rfl⟩
      · simp only [hb, hw, Except.bind, bind, pure, Except.pure] at hr; cases hr
      · simp only [hb, hw, Except.bind, bind, pure, Except.pure] at he; cases he; exact .inr ⟨vb, w, rfl, hw, rfl⟩

/-- Everything an action `a <- f(b, c)` can do. -/
theorem binaryOp_next {f : Word → Word → Except Raise Nat} {a b c : Operand} {s t : State}
    (h : binaryOp f a b c s = .next t) :
    ∃ a0, s.fault = none ∧ s.pc = .running a0 ∧
      ((∃ r, t = latch s a0 r ∧
          (rdOp s b = .error r ∨ rdOp s c = .error r ∨
           (∃ vb vc, rdOp s b = .ok vb ∧ rdOp s c = .ok vc ∧ f vb vc = .error r) ∨
           (∃ vb vc v, rdOp s b = .ok vb ∧ rdOp s c = .ok vc ∧ f vb vc = .ok v ∧ wrOp a v = .error r))) ∨
       (∃ vb vc v w, rdOp s b = .ok vb ∧ rdOp s c = .ok vc ∧ f vb vc = .ok v ∧ wrOp a v = .ok w ∧
          t = commit s (nextAddr a0 3) { reg := some w })) := by
  obtain ⟨a0, hf, hp, hx⟩ := perform_next h
  refine ⟨a0, hf, hp, ?_⟩
  simp only [bind, pure] at hx
  cases hb : rdOp s b with
  | error r =>
    rcases hx with ⟨r', hr, rfl⟩ | ⟨e, he, _⟩
    · simp only [hb, Except.bind] at hr; cases hr; exact .inl ⟨r, rfl, .inl rfl⟩
    · simp only [hb, Except.bind] at he; cases he
  | ok vb =>
    cases hc : rdOp s c with
    | error r =>
      rcases hx with ⟨r', hr, rfl⟩ | ⟨e, he, _⟩
      · simp only [hb, hc, Except.bind] at hr; cases hr; exact .inl ⟨r, rfl, .inr (.inl rfl)⟩
      · simp only [hb, hc, Except.bind] at he; cases he
    | ok vc =>
      cases hv : f vb vc with
      | error r =>
        rcases hx with ⟨r', hr, rfl⟩ | ⟨e, he, _⟩
        · simp only [hb, hc, hv, Except.bind] at hr; cases hr
          exact .inl ⟨r, rfl, .inr (.inr (.inl ⟨vb, vc, rfl, rfl, hv⟩))⟩
        · simp only [hb, hc, hv, Except.bind] at he; cases he
      | ok v =>
        cases hw : wrOp a v with
        | error r =>
          rcases hx with ⟨r', hr, rfl⟩ | ⟨e, he, _⟩
          · simp only [hb, hc, hv, hw, Except.bind] at hr; cases hr
            exact .inl ⟨r, rfl, .inr (.inr (.inr ⟨vb, vc, v, rfl, rfl, hv, hw⟩))⟩
          · simp only [hb, hc, hv, hw, Except.bind] at he; cases he
        | ok w =>
          rcases hx with ⟨r', hr, _⟩ | ⟨e, he, rfl⟩
          · simp only [hb, hc, hv, hw, Except.bind, Except.pure] at hr; cases hr
          · simp only [hb, hc, hv, hw, Except.bind, Except.pure] at he; cases he
            exact .inr ⟨vb, vc, v, w, rfl, rfl, hv, hw, rfl⟩

/-- Everything a conditional jump can do. -/
theorem jumpIf_next {taken : Word → Bool} {a b : Operand} {s t : State} (h : jumpIf taken a b s = .next t) :
    ∃ a0, s.fault = none ∧ s.pc = .running a0 ∧
      ((∃ r, t = latch s a0 r ∧ (rdOp s a = .error r ∨ rdOp s b = .error r)) ∨
       (∃ va vb, rdOp s a = .ok va ∧ taken va = true ∧ rdOp s b = .ok vb ∧
          t = commit s (nextAddr a0 2) { pc := some (.running (vb.setWidth 16)) }) ∨
       (∃ va, rdOp s a = .ok va ∧ taken va = false ∧ t = commit s (nextAddr a0 2) {})) := by
  obtain ⟨a0, hf, hp, hx⟩ := perform_next h
  refine ⟨a0, hf, hp, ?_⟩
  simp only [bind, pure] at hx
  cases ha : rdOp s a with
  | error r =>
    rcases hx with ⟨r', hr, rfl⟩ | ⟨e, he, _⟩
    · simp only [ha, Except.bind] at hr; cases hr; exact .inl ⟨r, rfl, .inl rfl⟩
    · simp only [ha, Except.bind] at he; cases he
  | ok va =>
    cases hT : taken va with
    | false =>
      rcases hx with ⟨r', hr, _⟩ | ⟨e, he, rfl⟩
      · simp [ha, hT, Except.bind, Except.pure] at hr
      · simp only [ha, hT, Except.bind, Except.pure, Bool.false_eq_true, if_false] at he; cases he
        exact .inr (.inr ⟨va, rfl, hT, rfl⟩)
    | true =>
      cases hb : rdOp s b with
      | error r =>
        rcases hx with ⟨r', hr, rfl⟩ | ⟨e, he, _⟩
        · simp only [ha, hT, hb, Except.bind, if_true] at hr; cases hr; exact .inl ⟨r, rfl, .inr rfl⟩
        · simp [ha, hT, hb, Except.bind] at he
      | ok vb =>
        rcases hx with ⟨r', hr, _⟩ | ⟨e, he, rfl⟩
        · simp [ha, hT, hb, Except.bind, Except.pure] at hr
        · simp only [ha, hT, hb, Except.bind, Except.pure, if_true] at he; cases he
          exact .inr (.inl ⟨va, vb, rfl, hT, rfl, rfl⟩)

/-- What `exec i s` did when it answered `t`, at `pc = a0`: it latched a fault, whose value is legal if the instruction is
well formed, or committed effects that `i` may ask for. -/
def ExecDid (i : Instr) (s t : State) (a0 : Cell) : Prop :=
  (∃ r, (i.WellFormed = true → infoLegal r.kind r.info.toNat = true) ∧ t = latch (actionState i s) a0 r) ∨
  (∃ e, EffectsOf i s (nextAddr a0 i.arity) e ∧ t = commit (actionState i s) (nextAddr a0 i.arity) e)

/-- The instructions of the shape `a <- f(b)`. -/
theorem unaryOp_did {i : Instr} {f : Word → Nat} {a b : Operand} {s t : State} (h : unaryOp f a b s = .next t)
    (hs : actionState i s = s) (hn : i.arity = 2) (hd : destination i = operandRegister a)
    (hw : i.WellFormed = true → a.WellFormed = true ∧ b.WellFormed = true) (hv : ∀ vb, f vb ≤ 1114111) :
    ∃ a0, Running s a0 ∧ ExecDid i s t a0 := by
  obtain ⟨a0, hf, hp, ⟨r, rfl, hr⟩ | ⟨vb, w, _, hwr, rfl⟩⟩ := unaryOp_next h
  · refine ⟨a0, ⟨hf, hp⟩, .inl ⟨r, fun wf => ?_, by rw [hs]⟩⟩
    rcases hr with hr | ⟨vb, _, hr⟩
    · exact rdOp_info hr (hw wf).2
    · exact wrOp_info hr (hw wf).1 (hv vb)
  · refine ⟨a0, ⟨hf, hp⟩, .inr ⟨_, effectsOf_reg ?_, by rw [hs, hn]⟩⟩
    rw [hd, (wrOp_ok hwr).2.1]
    rfl

/-- The instructions of the shape `a <- f(b, c)`. -/
theorem binaryOp_did {i : Instr} {f : Word → Word → Except Raise Nat} {a b c : Operand} {s t : State}
    (h : binaryOp f a b c s = .next t) (hs : actionState i s = s) (hn : i.arity = 3)
    (hd : destination i = operandRegister a)
    (hw : i.WellFormed = true → a.WellFormed = true ∧ b.WellFormed = true ∧ c.WellFormed = true)
    (hv : ∀ vb vc v, f vb vc = .ok v → v ≤ 1114111)
    (he : ∀ vb vc r, f vb vc = .error r → infoLegal r.kind r.info.toNat = true) :
    ∃ a0, Running s a0 ∧ ExecDid i s t a0 := by
  obtain ⟨a0, hf, hp, ⟨r, rfl, hr⟩ | ⟨vb, vc, v, w, _, _, _, hwr, rfl⟩⟩ := binaryOp_next h
  · refine ⟨a0, ⟨hf, hp⟩, .inl ⟨r, fun wf => ?_, by rw [hs]⟩⟩
    rcases hr with hr | hr | ⟨vb, vc, _, _, hr⟩ | ⟨vb, vc, v, _, _, hfv, hr⟩
    · exact rdOp_info hr (hw wf).2.1
    · exact rdOp_info hr (hw wf).2.2
    · exact he vb vc r hr
    · exact wrOp_info hr (hw wf).1 (hv vb vc v hfv)
  · refine ⟨a0, ⟨hf, hp⟩, .inr ⟨_, effectsOf_reg ?_, by rw [hs, hn]⟩⟩
    rw [hd, (wrOp_ok hwr).2.1]
    rfl

/-- The conditional jumps. -/
theorem jumpIf_did {i : Instr} {taken : Word → Bool} {a b : Operand} {s t : State} (h : jumpIf taken a b s = .next t)
    (hs : actionState i s = s) (hn : i.arity = 2)
    (hw : i.WellFormed = true → a.WellFormed = true ∧ b.WellFormed = true) :
    ∃ a0, Running s a0 ∧ ExecDid i s t a0 := by
  obtain ⟨a0, hf, hp, ⟨r, rfl, hr⟩ | ⟨va, vb, _, _, _, rfl⟩ | ⟨va, _, _, rfl⟩⟩ := jumpIf_next h
  · refine ⟨a0, ⟨hf, hp⟩, .inl ⟨r, fun wf => ?_, by rw [hs]⟩⟩
    rcases hr with hr | hr
    · exact rdOp_info hr (hw wf).1
    · exact rdOp_info hr (hw wf).2
  · exact ⟨a0, ⟨hf, hp⟩, .inr ⟨_, effectsOf_goto _ _ _ _, by rw [hs, hn]⟩⟩
  · exact ⟨a0, ⟨hf, hp⟩, .inr ⟨_, effectsOf_nothing _ _ _, by rw [hs, hn]⟩⟩

theorem and_wf {x y : Bool} (h : (x && y) = true) : x = true ∧ y = true := by simpa using h
theorem and_and_wf {x y z : Bool} (h : (x && y && z) = true) : x = true ∧ y = true ∧ z = true := by
  simpa [and_assoc] using h

theorem execHalt_did {s t : State} (h : execHalt s = .next t) : ∃ a0, Running s a0 ∧ ExecDid .halt s t a0 := by
  obtain ⟨a0, hf, hp, ⟨r, hr, _⟩ | ⟨e, he, rfl⟩⟩ := perform_next h
  · cases hr
  · cases he
    refine ⟨a0, ⟨hf, hp⟩, .inr ⟨_, ?_, rfl⟩⟩
    exact { reg := by simp, mem := by simp, stack := .inl rfl, emit := by simp, consume := by simp, pc := by simp }

theorem execNoop_did {s t : State} (h : execNoop s = .next t) : ∃ a0, Running s a0 ∧ ExecDid .noop s t a0 := by
  obtain ⟨a0, hf, hp, ⟨r, hr, _⟩ | ⟨e, he, rfl⟩⟩ := perform_next h
  · cases hr
  · cases he
    exact ⟨a0, ⟨hf, hp⟩, .inr ⟨_, effectsOf_nothing _ _ _, rfl⟩⟩

theorem execPush_did {a : Operand} {s t : State} (h : execPush a s = .next t) :
    ∃ a0, Running s a0 ∧ ExecDid (.push a) s t a0 := by
  obtain ⟨a0, hf, hp, hx⟩ := perform_next h
  refine ⟨a0, ⟨hf, hp⟩, ?_⟩
  simp only [bind, pure] at hx
  cases ha : rdOp s a with
  | error r =>
    rcases hx with ⟨r', hr, rfl⟩ | ⟨e, he, _⟩
    · simp only [ha, Except.bind] at hr; cases hr; exact .inl ⟨r, rdOp_info ha, rfl⟩
    · simp only [ha, Except.bind] at he; cases he
  | ok v =>
    rcases pushOp_cases s (v.setWidth 16) with ⟨hd, hpu⟩ | ⟨hd, hpu⟩
    · rcases hx with ⟨r', hr, _⟩ | ⟨e, he, rfl⟩
      · simp only [ha, hpu, Except.bind, Except.pure] at hr; cases hr
      · simp only [ha, hpu, Except.bind, Except.pure] at he; cases he
        refine .inr ⟨_, ?_, rfl⟩
        have hv : (v.setWidth 16).toNat < 32768 := by rw [word_setWidth_toNat]; exact word_lt v
        exact { reg := by simp, mem := by simp, emit := by simp, consume := by simp, pc := .inl rfl,
                stack := .inr (.inr ⟨.inl ⟨a, rfl⟩, hd, _, rfl, .inl hv⟩) }
    · rcases hx with ⟨r', hr, rfl⟩ | ⟨e, he, _⟩
      · simp only [ha, hpu, Except.bind] at hr; cases hr; exact .inl ⟨_, fun _ => rfl, rfl⟩
      · simp only [ha, hpu, Except.bind] at he; cases he

theorem execPop_did {a : Operand} {s t : State} (h : execPop a s = .next t) :
    ∃ a0, Running s a0 ∧ ExecDid (.pop a) s t a0 := by
  obtain ⟨a0, hf, hp, hx⟩ := perform_next h
  refine ⟨a0, ⟨hf, hp⟩, ?_⟩
  simp only [bind, pure] at hx
  cases hs : s.stack with
  | nil =>
    rcases hx with ⟨r', hr, rfl⟩ | ⟨e, he, _⟩
    · simp only [hs, raise] at hr; cases hr; exact .inl ⟨_, fun _ => rfl, rfl⟩
    · simp only [hs, raise] at he; cases he
  | cons v rest =>
    cases hw : wrOp a v.toNat with
    | error r =>
      rcases hx with ⟨r', hr, rfl⟩ | ⟨e, he, _⟩
      · simp only [hs, hw, Except.bind] at hr; cases hr
        exact .inl ⟨r, fun wf => wrOp_info hw wf (by have := v.isLt; omega), rfl⟩
      · simp only [hs, hw, Except.bind] at he; cases he
    | ok w =>
      rcases hx with ⟨r', hr, _⟩ | ⟨e, he, rfl⟩
      · simp only [hs, hw, Except.bind, Except.pure] at hr; cases hr
      · simp only [hs, hw, Except.bind, Except.pure] at he; cases he
        refine .inr ⟨_, ?_, rfl⟩
        refine { reg := ?_, mem := by simp, emit := by simp, consume := by simp, pc := .inl rfl,
                 stack := .inr (.inl ⟨.inr ⟨a, rfl⟩, rfl, by simp [hs]⟩) }
        intro r x e
        cases e
        have := (wrOp_ok hw).2.1
        simp only at this
        subst this
        rfl

theorem execJmp_did {a : Operand} {s t : State} (h : execJmp a s = .next t) :
    ∃ a0, Running s a0 ∧ ExecDid (.jmp a) s t a0 := by
  obtain ⟨a0, hf, hp, hx⟩ := perform_next h
  refine ⟨a0, ⟨hf, hp⟩, ?_⟩
  simp only [bind, pure] at hx
  cases ha : rdOp s a with
  | error r =>
    rcases hx with ⟨r', hr, rfl⟩ | ⟨e, he, _⟩
    · simp only [ha, Except.bind] at hr; cases hr; exact .inl ⟨r, rdOp_info ha, rfl⟩
    · simp only [ha, Except.bind] at he; cases he
  | ok v =>
    rcases hx with ⟨r', hr, _⟩ | ⟨e, he, rfl⟩
    · simp only [ha, Except.bind, Except.pure] at hr; cases hr
    · simp only [ha, Except.bind, Except.pure] at he; cases he
      exact .inr ⟨_, effectsOf_goto _ _ _ _, rfl⟩

theorem execWmem_did {a b : Operand} {s t : State} (h : execWmem a b s = .next t) :
    ∃ a0, Running s a0 ∧ ExecDid (.wmem a b) s t a0 := by
  obtain ⟨a0, hf, hp, hx⟩ := perform_next h
  refine ⟨a0, ⟨hf, hp⟩, ?_⟩
  simp only [bind, pure] at hx
  cases ha : rdOp s a with
  | error r =>
    rcases hx with ⟨r', hr, rfl⟩ | ⟨e, he, _⟩
    · simp only [ha, Except.bind] at hr; cases hr; exact .inl ⟨r, fun wf => rdOp_info ha (and_wf wf).1, rfl⟩
    · simp only [ha, Except.bind] at he; cases he
  | ok addr =>
    cases hb : rdOp s b with
    | error r =>
      rcases hx with ⟨r', hr, rfl⟩ | ⟨e, he, _⟩
      · simp only [ha, hb, Except.bind] at hr; cases hr
        exact .inl ⟨r, fun wf => rdOp_info hb (and_wf wf).2, rfl⟩
      · simp only [ha, hb, Except.bind] at he; cases he
    | ok v =>
      rcases hx with ⟨r', hr, _⟩ | ⟨e, he, rfl⟩
      · simp only [ha, hb, Except.bind, Except.pure] at hr; cases hr
      · simp only [ha, hb, Except.bind, Except.pure] at he; cases he
        refine .inr ⟨_, ?_, rfl⟩
        refine { reg := by simp, mem := ?_, emit := by simp, consume := by simp, pc := .inl rfl, stack := .inl rfl }
        intro x y e
        cases e
        exact ⟨by rw [word_setWidth_toNat]; exact word_lt v, a, b, rfl, ha⟩

theorem execCall_did {a : Operand} {s t : State} (h : execCall a s = .next t) :
    ∃ a0, Running s a0 ∧ ExecDid (.call a) s t a0 := by
  obtain ⟨a0, hf, hp, hx⟩ := perform_next h
  refine ⟨a0, ⟨hf, hp⟩, ?_⟩
  simp only [bind, pure] at hx
  cases ha : rdOp s a with
  | error r =>
    rcases hx with ⟨r', hr, rfl⟩ | ⟨e, he, _⟩
    · simp only [ha, Except.bind] at hr; cases hr; exact .inl ⟨r, rdOp_info ha, rfl⟩
    · simp only [ha, Except.bind] at he; cases he
  | ok v =>
    rcases pushOp_cases s (nextAddr a0 1) with ⟨hd, hpu⟩ | ⟨hd, hpu⟩
    · rcases hx with ⟨r', hr, _⟩ | ⟨e, he, rfl⟩
      · simp only [ha, hpu, Except.bind, Except.pure] at hr; cases hr
      · simp only [ha, hpu, Except.bind, Except.pure] at he; cases he
        refine .inr ⟨_, ?_, rfl⟩
        have hv : (v.setWidth 16).toNat < 32768 := by rw [word_setWidth_toNat]; exact word_lt v
        exact { reg := by simp, mem := by simp, emit := by simp, consume := by simp,
                pc := .inr (.inr ⟨_, rfl, .inl hv⟩),
                stack := .inr (.inr ⟨.inr ⟨a, rfl⟩, hd, _, rfl, .inr rfl⟩) }
    · rcases hx with ⟨r', hr, rfl⟩ | ⟨e, he, _⟩
      · simp only [ha, hpu, Except.bind] at hr; cases hr; exact .inl ⟨_, fun _ => rfl, rfl⟩
      · simp only [ha, hpu, Except.bind] at he; cases he

theorem execRet_did {s t : State} (h : execRet s = .next t) : ∃ a0, Running s a0 ∧ ExecDid .ret s t a0 := by
  obtain ⟨a0, hf, hp, hx⟩ := perform_next h
  refine ⟨a0, ⟨hf, hp⟩, ?_⟩
  simp only [pure] at hx
  cases hs : s.stack with
  | nil =>
    rcases hx with ⟨r', hr, _⟩ | ⟨e, he, rfl⟩
    · simp only [hs, Except.pure] at hr; cases hr
    · simp only [hs, Except.pure] at he; cases he
      refine .inr ⟨_, ?_, rfl⟩
      exact { reg := by simp, mem := by simp, emit := by simp, consume := by simp, stack := .inl rfl,
              pc := .inr (.inl ⟨rfl, .inr ⟨rfl, hs⟩⟩) }
  | cons c rest =>
    rcases hx with ⟨r', hr, _⟩ | ⟨e, he, rfl⟩
    · simp only [hs, Except.pure] at hr; cases hr
    · simp only [hs, Except.pure] at he; cases he
      refine .inr ⟨_, ?_, rfl⟩
      exact { reg := by simp, mem := by simp, emit := by simp, consume := by simp,
              stack := .inr (.inl ⟨.inl rfl, rfl, by simp [hs]⟩),
              pc := .inr (.inr ⟨c, rfl, .inr (by simp [hs])⟩) }

theorem execOut_did {a : Operand} {s t : State} (h : execOut a s = .next t) :
    ∃ a0, Running s a0 ∧ ExecDid (.out a) s t a0 := by
  obtain ⟨a0, hf, hp, hx⟩ := perform_next h
  refine ⟨a0, ⟨hf, hp⟩, ?_⟩
  simp only [bind, pure] at hx
  cases ha : rdOp s a with
  | error r =>
    rcases hx with ⟨r', hr, rfl⟩ | ⟨e, he, _⟩
    · simp only [ha, Except.bind] at hr; cases hr; exact .inl ⟨r, rdOp_info ha, rfl⟩
    · simp only [ha, Except.bind] at he; cases he
  | ok v =>
    rcases hx with ⟨r', hr, _⟩ | ⟨e, he, rfl⟩
    · simp only [ha, Except.bind, Except.pure] at hr; cases hr
    · simp only [ha, Except.bind, Except.pure] at he; cases he
      refine .inr ⟨_, ?_, rfl⟩
      exact { reg := by simp, mem := by simp, emit := fun c _ => ⟨a, rfl⟩, consume := by simp, pc := .inl rfl,
              stack := .inl rfl }

/-- Everything the action of `in` can do on a line buffer (48_io.md R192). -/
theorem takeChar_cases (a : Operand) (l : List CodePoint) :
    (l = [] ∧ takeChar a l = .error { kind := .endOfInput, info := 0 }) ∨
    (∃ ch rest r, l = ch :: rest ∧ wrOp a ch.val = .error r ∧ takeChar a l = .error r) ∨
    (∃ ch rest w, l = ch :: rest ∧ wrOp a ch.val = .ok w ∧
      takeChar a l = .ok { reg := some w, consume := true }) := by
  cases l with
  | nil => exact .inl ⟨rfl, rfl⟩
  | cons ch rest =>
    cases hw : wrOp a ch.val with
    | error r => exact .inr (.inl ⟨ch, rest, r, rfl, hw, by simp only [takeChar, hw, bind, Except.bind]⟩)
    | ok w =>
      exact .inr (.inr ⟨ch, rest, w, rfl, hw, by simp only [takeChar, hw, bind, Except.bind, pure, Except.pure]⟩)

theorem execInput_did {a : Operand} {s t : State} (h : execInput a s = .next t) :
    ∃ a0, Running s a0 ∧ ExecDid (.input a) s t a0 := by
  obtain ⟨a0, hf, hp, hx⟩ := perform_next h
  rw [refill_fault] at hf
  rw [refill_pc] at hp
  refine ⟨a0, ⟨hf, hp⟩, ?_⟩
  rcases takeChar_cases a (refill s).inbuf with ⟨_, ht⟩ | ⟨ch, rest, r, _, hw, ht⟩ | ⟨ch, rest, w, _, hw, ht⟩
  · rcases hx with ⟨r', hr, rfl⟩ | ⟨e, he, _⟩
    · rw [ht] at hr; cases hr; exact .inl ⟨_, fun _ => rfl, rfl⟩
    · rw [ht] at he; cases he
  · rcases hx with ⟨r', hr, rfl⟩ | ⟨e, he, _⟩
    · rw [ht] at hr; cases hr
      exact .inl ⟨_, fun wf => wrOp_info hw wf (by have := ch.isLt; omega), rfl⟩
    · rw [ht] at he; cases he
  · rcases hx with ⟨r', hr, _⟩ | ⟨e, he, rfl⟩
    · rw [ht] at hr; cases hr
    · rw [ht] at he; cases he
      refine .inr ⟨_, ?_, rfl⟩
      refine { reg := ?_, mem := by simp, emit := by simp, consume := fun _ => ⟨a, rfl⟩, pc := .inl rfl,
               stack := .inl rfl }
      intro r x e
      cases e
      have := (wrOp_ok hw).2.1
      simp only at this
      subst this
      rfl

/-- The inversion of `exec`: if it answers a next state, the machine was running, and the action latched a legal fault or
committed effects its instruction may ask for. -/
theorem exec_next {i : Instr} {s t : State} (h : exec i s = .next t) :
    ∃ a0, Running s a0 ∧ ExecDid i s t a0 := by
  cases i with
  | halt => exact execHalt_did h
  | set a b => exact unaryOp_did h rfl rfl rfl and_wf (fun v => by have := word_lt v; omega)
  | push a => exact execPush_did h
  | pop a => exact execPop_did h
  | eq a b c =>
    refine binaryOp_did h rfl rfl rfl and_and_wf (fun vb vc v e => ?_) (fun vb vc r e => by cases e)
    cases e; unfold eqValue; split <;> omega
  | gt a b c =>
    refine binaryOp_did h rfl rfl rfl and_and_wf (fun vb vc v e => ?_) (fun vb vc r e => by cases e)
    cases e; unfold gtValue; split <;> omega
  | jmp a => exact execJmp_did h
  | jt a b => exact jumpIf_did h rfl rfl and_wf
  | jf a b => exact jumpIf_did h rfl rfl and_wf
  | add a b c =>
    refine binaryOp_did h rfl rfl rfl and_and_wf (fun vb vc v e => ?_) (fun vb vc r e => by cases e)
    cases e; simp only [addValue, modulus_eq]; omega
  | mult a b c =>
    refine binaryOp_did h rfl rfl rfl and_and_wf (fun vb vc v e => ?_) (fun vb vc r e => by cases e)
    cases e; simp only [multValue, modulus_eq]; omega
  | mod a b c =>
    refine binaryOp_did h rfl rfl rfl and_and_wf (fun vb vc v e => ?_) (fun vb vc r e => ?_)
    · simp only [modValue] at e
      split at e
      · cases e
      · cases e
        have h1 := Nat.mod_le vb.toNat vc.toNat
        have h2 := word_lt vb
        omega
    · simp only [modValue] at e
      split at e
      · cases e; rfl
      · cases e
  | and a b c =>
    refine binaryOp_did h rfl rfl rfl and_and_wf (fun vb vc v e => ?_) (fun vb vc r e => by cases e)
    cases e; have := word_lt (vb &&& vc); unfold andValue; omega
  | or a b c =>
    refine binaryOp_did h rfl rfl rfl and_and_wf (fun vb vc v e => ?_) (fun vb vc r e => by cases e)
    cases e; have := word_lt (vb ||| vc); unfold orValue; omega
  | not a b => exact unaryOp_did h rfl rfl rfl and_wf (fun v => by have := word_lt (~~~v); unfold notValue; omega)
  | rmem a b =>
    exact unaryOp_did h rfl rfl rfl and_wf (fun v => by have := (s.mem.read v.toNat).isLt; omega)
  | wmem a b => exact execWmem_did h
  | call a => exact execCall_did h
  | ret => exact execRet_did h
  | out a => exact execOut_did h
  | input a => exact execInput_did h
  | noop => exact execNoop_did h

end Sys2Proof.Machine
end

