-- ==== Sys2Proof/Laws/Complete.lean ====
section
/-!
SUPPORT. Where the shapes of action complete and where they raise, from what their operands denote; what a step does with
what it fetched.
-/

namespace Sys2Proof.Machine

/-- A source operand that denotes a Word resolves to it (30_encoding.md R66). -/
theorem rdOp_of_value {s : State} {o : Operand} {v : Word} (h : operandValue s o = some v) : rdOp s o = .ok v := by
  cases o with
  | lit x => cases h; rfl
  | reg r => cases h; rfl
  | invalid w => cases h

/-- A source operand resolves to a Word exactly when it denotes it. -/
theorem value_of_rdOp {s : State} {o : Operand} {v : Word} (h : rdOp s o = .ok v) : operandValue s o = some v := by
  cases o with
  | lit x => cases h; rfl
  | reg r => cases h; rfl
  | invalid w => cases h

section shapes

variable {s : State} {a0 : Cell} {a b c : Operand} {vb vc : Word} {w : RegIx × Word} {r : Raise}

theorem unaryOp_commits {f : Word → Nat} (hs : Running s a0) (hb : rdOp s b = .ok vb) (hw : wrOp a (f vb) = .ok w) :
    unaryOp f a b s = .next (commit s (nextAddr a0 2) { reg := some w }) :=
  perform_commits hs.1 hs.2 (by simp only [hb, hw, bind, Except.bind, pure, Except.pure])

theorem unaryOp_raises_source {f : Word → Nat} (hs : Running s a0) (hb : rdOp s b = .error r) :
    unaryOp f a b s = .next (latch s a0 r) :=
  perform_raises hs.1 hs.2 (by simp only [hb, bind, Except.bind])

theorem unaryOp_raises_write {f : Word → Nat} (hs : Running s a0) (hb : rdOp s b = .ok vb)
    (hw : wrOp a (f vb) = .error r) : unaryOp f a b s = .next (latch s a0 r) :=
  perform_raises hs.1 hs.2 (by simp only [hb, hw, bind, Except.bind])

theorem binaryOp_commits {f : Word → Word → Except Raise Nat} {v : Nat} (hs : Running s a0) (hb : rdOp s b = .ok vb)
    (hc : rdOp s c = .ok vc) (hv : f vb vc = .ok v) (hw : wrOp a v = .ok w) :
    binaryOp f a b c s = .next (commit s (nextAddr a0 3) { reg := some w }) :=
  perform_commits hs.1 hs.2 (by simp only [hb, hc, hv, hw, bind, Except.bind, pure, Except.pure])

theorem binaryOp_raises_first {f : Word → Word → Except Raise Nat} (hs : Running s a0) (hb : rdOp s b = .error r) :
    binaryOp f a b c s = .next (latch s a0 r) :=
  perform_raises hs.1 hs.2 (by simp only [hb, bind, Except.bind])

theorem binaryOp_raises_second {f : Word → Word → Except Raise Nat} (hs : Running s a0) (hb : rdOp s b = .ok vb)
    (hc : rdOp s c = .error r) : binaryOp f a b c s = .next (latch s a0 r) :=
  perform_raises hs.1 hs.2 (by simp only [hb, hc, bind, Except.bind])

theorem binaryOp_raises_operation {f : Word → Word → Except Raise Nat} (hs : Running s a0) (hb : rdOp s b = .ok vb)
    (hc : rdOp s c = .ok vc) (hv : f vb vc = .error r) : binaryOp f a b c s = .next (latch s a0 r) :=
  perform_raises hs.1 hs.2 (by simp only [hb, hc, hv, bind, Except.bind])

theorem binaryOp_raises_write {f : Word → Word → Except Raise Nat} {v : Nat} (hs : Running s a0)
    (hb : rdOp s b = .ok vb) (hc : rdOp s c = .ok vc) (hv : f vb vc = .ok v) (hw : wrOp a v = .error r) :
    binaryOp f a b c s = .next (latch s a0 r) :=
  perform_raises hs.1 hs.2 (by simp only [hb, hc, hv, hw, bind, Except.bind])

theorem jumpIf_taken {taken : Word → Bool} {va : Word} (hs : Running s a0) (ha : rdOp s a = .ok va)
    (ht : taken va = true) (hb : rdOp s b = .ok vb) :
    jumpIf taken a b s = .next (commit s (nextAddr a0 2) { pc := some (.running (vb.setWidth 16)) }) :=
  perform_commits hs.1 hs.2 (by simp only [ha, ht, hb, bind, Except.bind, pure, Except.pure, if_true])

theorem jumpIf_not_taken {taken : Word → Bool} {va : Word} (hs : Running s a0) (ha : rdOp s a = .ok va)
    (ht : taken va = false) : jumpIf taken a b s = .next (commit s (nextAddr a0 2) {}) :=
  perform_commits hs.1 hs.2
    (by simp only [ha, ht, bind, Except.bind, pure, Except.pure, Bool.false_eq_true, if_false])

theorem jumpIf_raises_condition {taken : Word → Bool} (hs : Running s a0) (ha : rdOp s a = .error r) :
    jumpIf taken a b s = .next (latch s a0 r) :=
  perform_raises hs.1 hs.2 (by simp only [ha, bind, Except.bind])

theorem jumpIf_raises_target {taken : Word → Bool} {va : Word} (hs : Running s a0) (ha : rdOp s a = .ok va)
    (ht : taken va = true) (hb : rdOp s b = .error r) : jumpIf taken a b s = .next (latch s a0 r) :=
  perform_raises hs.1 hs.2 (by simp only [ha, ht, hb, bind, Except.bind, if_true])

end shapes

/-- A fetch succeeds exactly when the window at `pc` decodes (40_step.md R91, R92). -/
theorem fetch_ok_iff {s : State} {a0 : Cell} {i : Instr} :
    fetch s a0 = .ok i ↔ ∃ rest, decode (s.mem.window 4 a0.toNat) = .ok (i, rest) := by
  unfold fetch
  split
  · next j rest h => simp [h]
  · next h => simp [raise, h]
  · next op h => simp [raise, h]
  · next k h => simp [raise, h]

/-- Everything a step can do when it answers a next state: the fetch raised and was latched, or the fetched instruction
ran. -/
theorem step_next {s t : State} (h : step s = .next t) :
    ∃ a0, Running s a0 ∧
      ((∃ r, fetch s a0 = .error r ∧ t = latch s a0 r) ∨ (∃ i, fetch s a0 = .ok i ∧ exec i s = .next t)) := by
  unfold step at h
  split at h
  · cases h
  · next a0 he =>
    refine ⟨a0, entry_ok_iff.1 he, ?_⟩
    split at h
    · next r hr => cases h; exact .inl ⟨r, hr, rfl⟩
    · next i hi => exact .inr ⟨i, hi, h⟩

/-- A step on a running machine whose fetch succeeds is the fetched instruction's action. -/
theorem step_of_fetch {s : State} {a0 : Cell} {i : Instr} (hs : Running s a0) (hi : fetch s a0 = .ok i) :
    step s = exec i s := by
  simp [step, entry_ok_iff.2 hs, hi]

/-- A step on a running machine whose fetch raises latches that fault. -/
theorem step_of_fetch_error {s : State} {a0 : Cell} {r : Raise} (hs : Running s a0) (hr : fetch s a0 = .error r) :
    step s = .next (latch s a0 r) := by
  simp [step, entry_ok_iff.2 hs, hr]

/-! Each instruction as the shared operation it is, one lemma per constructor. -/

theorem exec_halt (s : State) : exec .halt s = perform s 0 fun _ => pure { pc := some .halted } := rfl
theorem exec_set (a b : Operand) (s : State) : exec (.set a b) s = unaryOp (fun vb => vb.toNat) a b s := rfl
theorem exec_push (a : Operand) (s : State) : exec (.push a) s = perform s 1 (fun _ => do
    let v ← rdOp s a
    let op ← pushOp s (v.setWidth 16)
    pure { stack := op }) := rfl
/-- `pop` on an empty stack. -/
theorem exec_pop_nil {s : State} (a : Operand) (h : s.stack = []) :
    exec (.pop a) s = perform s 1 fun _ => raise .stackUnderflow 0 := by
  simp only [exec, execPop, h]
/-- `pop` on a stack with a top. -/
theorem exec_pop_cons {s : State} {c : Cell} {rest : List Cell} (a : Operand) (h : s.stack = c :: rest) :
    exec (.pop a) s = perform s 1 (fun _ => do
      let w ← wrOp a c.toNat
      pure { reg := some w, stack := .drop }) := by
  simp only [exec, execPop, h]
theorem exec_eq (a b c : Operand) (s : State) :
    exec (.eq a b c) s = binaryOp (fun vb vc => .ok (eqValue vb vc)) a b c s := rfl
theorem exec_gt (a b c : Operand) (s : State) :
    exec (.gt a b c) s = binaryOp (fun vb vc => .ok (gtValue vb vc)) a b c s := rfl
theorem exec_jmp (a : Operand) (s : State) : exec (.jmp a) s = perform s 1 (fun _ => do
    let t ← rdOp s a
    pure { pc := some (.running (t.setWidth 16)) }) := rfl
theorem exec_jt (a b : Operand) (s : State) : exec (.jt a b) s = jumpIf (fun va => wordTrue va) a b s := rfl
theorem exec_jf (a b : Operand) (s : State) : exec (.jf a b) s = jumpIf (fun va => !wordTrue va) a b s := rfl
theorem exec_add (a b c : Operand) (s : State) :
    exec (.add a b c) s = binaryOp (fun vb vc => .ok (addValue vb vc)) a b c s := rfl
theorem exec_mult (a b c : Operand) (s : State) :
    exec (.mult a b c) s = binaryOp (fun vb vc => .ok (multValue vb vc)) a b c s := rfl
theorem exec_mod (a b c : Operand) (s : State) :
    exec (.mod a b c) s = binaryOp (fun vb vc => modValue vb vc) a b c s := rfl
theorem exec_and (a b c : Operand) (s : State) :
    exec (.and a b c) s = binaryOp (fun vb vc => .ok (andValue vb vc)) a b c s := rfl
theorem exec_or (a b c : Operand) (s : State) :
    exec (.or a b c) s = binaryOp (fun vb vc => .ok (orValue vb vc)) a b c s := rfl
theorem exec_not (a b : Operand) (s : State) : exec (.not a b) s = unaryOp (fun vb => notValue vb) a b s := rfl
theorem exec_rmem (a b : Operand) (s : State) :
    exec (.rmem a b) s = unaryOp (fun addr => (s.mem.read addr.toNat).toNat) a b s := rfl
theorem exec_wmem (a b : Operand) (s : State) : exec (.wmem a b) s = perform s 2 (fun _ => do
    let addr ← rdOp s a
    let v ← rdOp s b
    pure { mem := some (addr, v.setWidth 16) }) := rfl
theorem exec_call (a : Operand) (s : State) : exec (.call a) s = perform s 1 (fun next => do
    let t ← rdOp s a
    let op ← pushOp s next
    pure { stack := op, pc := some (.running (t.setWidth 16)) }) := rfl
/-- `ret` on an empty stack. -/
theorem exec_ret_nil {s : State} (h : s.stack = []) :
    exec .ret s = perform s 0 fun _ => pure { pc := some .halted } := by
  simp only [exec, execRet, h]
/-- `ret` on a stack with a top. -/
theorem exec_ret_cons {s : State} {c : Cell} {rest : List Cell} (h : s.stack = c :: rest) :
    exec .ret s = perform s 0 fun _ => pure { stack := .drop, pc := some (.running c) } := by
  simp only [exec, execRet, h]
theorem exec_out (a : Operand) (s : State) : exec (.out a) s = perform s 1 (fun _ => do
    let c ← rdOp s a
    pure { emit := some c }) := rfl
theorem exec_input (a : Operand) (s : State) :
    exec (.input a) s = perform (refill s) 1 fun _ => takeChar a (refill s).inbuf := rfl
theorem exec_noop (s : State) : exec .noop s = perform s 0 fun _ => pure {} := rfl

/-- `perform` on a running machine answers a next state. -/
theorem perform_answers {s : State} {a0 : Cell} {n : Nat} {act : Cell → Except Raise Effects}
    (hf : s.fault = none) (hp : s.pc = .running a0) : ∃ t, perform s n act = .next t := by
  cases h : act (nextAddr a0 n) with
  | error r => exact ⟨_, perform_raises hf hp h⟩
  | ok e => exact ⟨_, perform_commits hf hp h⟩

/-- Every instruction on a running machine answers a next state. -/
theorem exec_answers {s : State} {a0 : Cell} (i : Instr) (hs : Running s a0) : ∃ t, exec i s = .next t := by
  cases i with
  | input a =>
    simp only [exec, execInput]
    exact perform_answers (a0 := a0) (by rw [refill_fault]; exact hs.1) (by rw [refill_pc]; exact hs.2)
  | _ =>
    simp only [exec, execHalt, execNoop, execSet, execPush, execPop, execEq, execGt, execJmp, execJt, execJf, execAdd,
      execMult, execMod, execAnd, execOr, execNot, execRmem, execWmem, execCall, execRet, execOut, unaryOp, binaryOp,
      jumpIf]
    exact perform_answers hs.1 hs.2

/-- A step on a running machine answers a next state. -/
theorem step_answers {s : State} {a0 : Cell} (hs : Running s a0) : ∃ t, step s = .next t := by
  cases h : fetch s a0 with
  | error r => exact ⟨_, step_of_fetch_error hs h⟩
  | ok i => rw [step_of_fetch hs h]; exact exec_answers i hs

end Sys2Proof.Machine
end

