-- ==== Sys2Proof/Laws/Decode.lean ====
section
/-!
SUPPORT. Operand words and operands: each is the other's reading; what a decoded instruction has.
-/

namespace Sys2Proof

theorem ofCell_lit {w : Cell} (h : w.toNat < 32768) : Operand.ofCell w = .lit (w.setWidth 15) := by
  simp [Operand.ofCell, h]

theorem ofCell_reg {w : Cell} (h : 32768 ≤ w.toNat) (h' : w.toNat < 32776) :
    Operand.ofCell w = .reg ⟨w.toNat - 32768, by omega⟩ := by
  have h1 : ¬ w.toNat < regBase := by rw [regBase_eq]; omega
  have h2 : w.toNat < litLimit := h'
  simp only [Operand.ofCell, h1, h2, if_false, if_true]
  refine congrArg Operand.reg (Fin.ext ?_)
  simp only [Fin.val_ofNat, regBase_eq]
  omega

theorem ofCell_invalid {w : Cell} (h : 32776 ≤ w.toNat) : Operand.ofCell w = .invalid w := by
  have h1 : ¬ w.toNat < 32768 := by omega
  have h2 : ¬ w.toNat < 32776 := by omega
  simp [Operand.ofCell, h1, h2]

/-- Every word's operand is well formed. -/
@[simp] theorem ofCell_wellFormed (w : Cell) : (Operand.ofCell w).WellFormed = true := by
  unfold Operand.ofCell
  split
  · rfl
  · split
    · rfl
    · next h => simpa [Operand.WellFormed] using h

/-- The word of a word's operand is that word. -/
@[simp] theorem toCell_ofCell (w : Cell) : (Operand.ofCell w).toCell = w := by
  by_cases h1 : w.toNat < 32768
  · rw [ofCell_lit h1]
    apply BitVec.eq_of_toNat_eq
    simp [Operand.toCell]
    omega
  · by_cases h2 : w.toNat < 32776
    · rw [ofCell_reg (by omega) h2]
      apply BitVec.eq_of_toNat_eq
      simp only [Operand.toCell, BitVec.toNat_ofNat, regBase_eq]
      omega
    · rw [ofCell_invalid (by omega)]
      rfl

/-- The operand of a well-formed operand's word is that operand. -/
theorem ofCell_toCell {o : Operand} (h : o.WellFormed = true) : Operand.ofCell o.toCell = o := by
  cases o with
  | lit v =>
    have hv : (Operand.lit v).toCell.toNat = v.toNat := word_setWidth_toNat v
    rw [ofCell_lit (by rw [hv]; exact word_lt v)]
    congr 1
    apply BitVec.eq_of_toNat_eq
    simp only [BitVec.toNat_setWidth, hv]
    exact Nat.mod_eq_of_lt (word_lt v)
  | reg r =>
    have hr : (Operand.reg r).toCell.toNat = 32768 + r.val := by
      simp only [Operand.toCell, BitVec.toNat_ofNat, regBase_eq]
      omega
    rw [ofCell_reg (by omega) (by omega)]
    refine congrArg Operand.reg (Fin.ext ?_)
    simp only [hr]
    omega
  | invalid w =>
    have : 32776 ≤ w.toNat := by simpa [Operand.WellFormed] using h
    exact ofCell_invalid this

/-- What `decode` says of an opcode word above 21. -/
theorem decode_illegal {op : Cell} (ws : List Cell) (h : 21 < op.toNat) :
    decode (op :: ws) = .error (.illegalOpcode op) := by
  simp only [decode]
  split <;> first | rfl | (exfalso; omega)

end Sys2Proof
end

