-- ==== Sys2Proof/Laws/Memory.lean ====
section
/-!
SUPPORT. The memory laws: the canonical form is kept by every operation, and a read after a write gives the value
written at its address and the old value elsewhere (20_memory.md R42, R49).
-/

namespace Sys2Proof.Machine

@[simp] theorem read_nil (a : Nat) : Memory.read [] a = Memory.blank := rfl

/-- An empty memory is in canonical form. -/
@[simp] theorem wf_nil : Memory.wf [] = true := rfl

theorem wfFrom_cons {lo k : Nat} {v : Cell} {m : Memory} :
    Memory.wfFrom lo ((k, v) :: m) = true ↔
      lo ≤ k ∧ k < memWords ∧ v ≠ Memory.blank ∧ Memory.wfFrom (k + 1) m = true := by
  simp [Memory.wfFrom, and_assoc]

/-- A bound below another bound holds too. -/
theorem wfFrom_mono {lo lo' : Nat} {m : Memory} (h : Memory.wfFrom lo m = true) (hl : lo' ≤ lo) :
    Memory.wfFrom lo' m = true := by
  cases m with
  | nil => rfl
  | cons p m =>
    have hc := wfFrom_cons.1 h
    exact wfFrom_cons.2 ⟨Nat.le_trans hl hc.1, hc.2⟩

/-- Below the bound of a canonical memory every cell is blank. -/
theorem read_below {lo a : Nat} {m : Memory} (h : Memory.wfFrom lo m = true) (ha : a < lo) :
    m.read a = Memory.blank := by
  induction m generalizing lo with
  | nil => rfl
  | cons p m ih =>
    obtain ⟨k, v⟩ := p
    rw [wfFrom_cons] at h
    have hk : a ≠ k := by omega
    simp only [Memory.read, hk, if_false]
    exact ih h.2.2.2 (by omega)

/-- A write at or above the bound, inside memory, keeps the canonical form. -/
theorem wfFrom_write {lo a : Nat} {v : Cell} {m : Memory} (h : Memory.wfFrom lo m = true) (hlo : lo ≤ a)
    (ha : a < memWords) : Memory.wfFrom lo (m.write a v) = true := by
  induction m generalizing lo with
  | nil =>
    by_cases hv : v = Memory.blank
    · simp [Memory.write, hv, Memory.wfFrom]
    · simp only [Memory.write, hv, if_false]
      exact wfFrom_cons.2 ⟨hlo, ha, hv, rfl⟩
  | cons p m ih =>
    obtain ⟨k, w⟩ := p
    have hc := wfFrom_cons.1 h
    unfold Memory.write
    split
    · split
      · exact h
      · next hlt hv => exact wfFrom_cons.2 ⟨hlo, ha, hv, wfFrom_cons.2 ⟨by omega, hc.2⟩⟩
    · split
      · next hk =>
        subst hk
        split
        · exact wfFrom_mono hc.2.2.2 (by omega)
        · next hv => exact wfFrom_cons.2 ⟨hlo, ha, hv, hc.2.2.2⟩
      · next hlt hne => exact wfFrom_cons.2 ⟨hc.1, hc.2.1, hc.2.2.1, ih hc.2.2.2 (by omega)⟩

/-- `MemWrite` keeps the canonical form. -/
theorem write_wf {m : Memory} {a : Nat} {v : Cell} (h : m.wf = true) (ha : a < memWords) :
    (m.write a v).wf = true :=
  wfFrom_write h (Nat.zero_le a) ha

/-- A read after a write above the bound. -/
theorem read_write_from {lo a b : Nat} {v : Cell} {m : Memory} (h : Memory.wfFrom lo m = true) :
    (m.write a v).read b = if b = a then v else m.read b := by
  induction m generalizing lo with
  | nil =>
    by_cases hv : v = Memory.blank
    · by_cases hb : b = a <;> simp [Memory.write, Memory.read, hv]
    · by_cases hb : b = a <;> simp [Memory.write, Memory.read, hv, hb]
  | cons p m ih =>
    obtain ⟨k, w⟩ := p
    have hc := wfFrom_cons.1 h
    unfold Memory.write
    split
    · next hlt =>
      split
      · next hv =>
        by_cases hb : b = a
        · simp only [hb, if_true, hv]
          exact read_below (wfFrom_cons.2 ⟨Nat.le_refl k, hc.2⟩) hlt
        · simp [hb]
      · by_cases hb : b = a <;> simp [Memory.read, hb]
    · split
      · next hk =>
        subst hk
        split
        · next hv =>
          by_cases hb : b = a
          · simp only [hb, if_true, hv]
            exact read_below hc.2.2.2 (by omega)
          · simp [Memory.read, hb]
        · by_cases hb : b = a <;> simp [Memory.read, hb]
      · next hlt hne =>
        by_cases hb : b = k
        · have : k ≠ a := fun e => hne e.symm
          simp [Memory.read, hb, this]
        · simp only [Memory.read, hb, if_false]
          exact ih hc.2.2.2

/-- A read after a write: the value written at its address, the old value everywhere else (20_memory.md R42). -/
theorem read_write {m : Memory} (h : m.wf = true) (a b : Nat) (v : Cell) :
    (m.write a v).read b = if b = a then v else m.read b :=
  read_write_from h

theorem read_write_self {m : Memory} (h : m.wf = true) (a : Nat) (v : Cell) : (m.write a v).read a = v := by
  simp [read_write h]

theorem read_write_other {m : Memory} (h : m.wf = true) {a b : Nat} (v : Cell) (hb : b ≠ a) :
    (m.write a v).read b = m.read b := by
  simp [read_write h, hb]

/-- Placing words keeps the canonical form. -/
theorem place_wf {m : Memory} (h : m.wf = true) (a : Nat) (ws : List Cell) : (m.place a ws).wf = true := by
  induction ws generalizing m a with
  | nil => exact h
  | cons w ws ih =>
    unfold Memory.place
    split
    · next ha => exact ih (write_wf h ha) (a + 1)
    · exact h

/-- What placed words read as: word `k` at address `a + k` inside memory, and elsewhere the old cells (20_memory.md R52). -/
theorem read_place {m : Memory} (h : m.wf = true) (a : Nat) (ws : List Cell) (b : Nat) :
    (m.place a ws).read b =
      if a ≤ b ∧ b < memWords then (ws[b - a]?).getD (m.read b) else m.read b := by
  induction ws generalizing m a with
  | nil => simp [Memory.place]
  | cons w ws ih =>
    unfold Memory.place
    split
    · next ha =>
      rw [ih (write_wf h ha), read_write h]
      rcases Nat.lt_trichotomy b a with hb | hb | hb
      · have h1 : ¬ (a + 1 ≤ b ∧ b < memWords) := by omega
        have h2 : ¬ (a ≤ b ∧ b < memWords) := by omega
        have h3 : b ≠ a := by omega
        simp only [h1, h2, h3, if_false]
      · subst hb
        simp [ha]
      · have h3 : b ≠ a := by omega
        have h4 : b - a = (b - (a + 1)) + 1 := by omega
        have h5 : (a + 1 ≤ b ∧ b < memWords) ↔ (a ≤ b ∧ b < memWords) := by omega
        simp only [h3, if_false, h4, List.getElem?_cons_succ, h5]
    · next ha =>
      have h2 : ¬ (a ≤ b ∧ b < memWords) := by omega
      simp only [h2, if_false]

/-- The window of consecutive cells at an address, cell by cell. -/
theorem window_getElem? (m : Memory) (n a k : Nat) :
    (m.window n a)[k]? = if k < n ∧ a + k < memWords then some (m.read (a + k)) else none := by
  induction n generalizing a k with
  | zero => simp [Memory.window]
  | succ n ih =>
    unfold Memory.window
    split
    · next ha =>
      cases k with
      | zero => simp [ha]
      | succ k =>
        rw [List.getElem?_cons_succ, ih]
        have : a + 1 + k = a + (k + 1) := by omega
        simp [this]
    · next ha =>
      have : ¬ (a + k < memWords) := by omega
      simp [this]

/-- A window is as long as asked, or as long as memory reaches. -/
theorem window_length (m : Memory) (n a : Nat) : (m.window n a).length = min n (memWords - a) := by
  induction n generalizing a with
  | zero => simp [Memory.window]
  | succ n ih =>
    unfold Memory.window
    split
    · next ha => simp only [List.length_cons, ih]; omega
    · next ha => simp only [List.length_nil]; omega

end Sys2Proof.Machine
end

