-- ==== Sys2Proof/Laws/PerInstr.lean ====
section
/-!
SUPPORT. The per-instruction statements of LAWS.json: an instruction's words are one opcode word of at most 21 and then
the words of its operands, one each (30_encoding.md R60, R61, R72).
-/

namespace Sys2Proof.Laws.Layout

/-- The words of `i`: an opcode word in the table, then its operands' words in order, `1 + arity` words in all. -/
def Statement (i : Instr) : Prop :=
  ∃ op : Cell, op.toNat ≤ 21 ∧ encode i = op :: i.operands.map Operand.toCell ∧
    (encode i).length = 1 + i.arity

theorem halt : Statement .halt := ⟨0, by decide, rfl, rfl⟩
theorem set (a b : Operand) : Statement (.set a b) := ⟨1, by decide, rfl, rfl⟩
theorem push (a : Operand) : Statement (.push a) := ⟨2, by decide, rfl, rfl⟩
theorem pop (a : Operand) : Statement (.pop a) := ⟨3, by decide, rfl, rfl⟩
theorem eq (a b c : Operand) : Statement (.eq a b c) := ⟨4, by decide, rfl, rfl⟩
theorem gt (a b c : Operand) : Statement (.gt a b c) := ⟨5, by decide, rfl, rfl⟩
theorem jmp (a : Operand) : Statement (.jmp a) := ⟨6, by decide, rfl, rfl⟩
theorem jt (a b : Operand) : Statement (.jt a b) := ⟨7, by decide, rfl, rfl⟩
theorem jf (a b : Operand) : Statement (.jf a b) := ⟨8, by decide, rfl, rfl⟩
theorem add (a b c : Operand) : Statement (.add a b c) := ⟨9, by decide, rfl, rfl⟩
theorem mult (a b c : Operand) : Statement (.mult a b c) := ⟨10, by decide, rfl, rfl⟩
theorem mod (a b c : Operand) : Statement (.mod a b c) := ⟨11, by decide, rfl, rfl⟩
theorem and (a b c : Operand) : Statement (.and a b c) := ⟨12, by decide, rfl, rfl⟩
theorem or (a b c : Operand) : Statement (.or a b c) := ⟨13, by decide, rfl, rfl⟩
theorem not (a b : Operand) : Statement (.not a b) := ⟨14, by decide, rfl, rfl⟩
theorem rmem (a b : Operand) : Statement (.rmem a b) := ⟨15, by decide, rfl, rfl⟩
theorem wmem (a b : Operand) : Statement (.wmem a b) := ⟨16, by decide, rfl, rfl⟩
theorem call (a : Operand) : Statement (.call a) := ⟨17, by decide, rfl, rfl⟩
theorem ret : Statement .ret := ⟨18, by decide, rfl, rfl⟩
theorem out (a : Operand) : Statement (.out a) := ⟨19, by decide, rfl, rfl⟩
theorem input (a : Operand) : Statement (.input a) := ⟨20, by decide, rfl, rfl⟩
theorem noop : Statement .noop := ⟨21, by decide, rfl, rfl⟩

end Sys2Proof.Laws.Layout
end

