-- ==== Sys2Proof/Machine/Disasm.lean ====
section
/-!
DEFINITION. The text of an instruction: the disassembler as a pure function of memory (30_encoding.md R80 to R85). It is
outside the block (00_scope.md R4) and no step uses it. Text is a list of characters (log entry 15).
-/

namespace Sys2Proof.Machine

/-- The decimal digits of a number below `10 ^ fuel`, most significant first. -/
def digits : Nat → Nat → List Char
  | 0, _ => []
  | fuel + 1, n =>
    (if n < 10 then [] else digits fuel (n / 10)) ++ [Char.ofNat (48 + n % 10)]

/-- A number in decimal; every number printed here is below 65536 (30_encoding.md R81, R83). -/
def decimal (n : Nat) : List Char := digits 5 n

/-- An operand's text by its value (30_encoding.md R83). -/
def operandText : Operand → List Char
  | .lit v => if v.toNat < 16384 then decimal v.toNat else '-' :: decimal (32768 - v.toNat)
  | .reg r => 'R' :: decimal r.val
  | .invalid w => ['?'] ++ decimal w.toNat ++ ['/', 'R'] ++ decimal (w.toNat - 32768)

/-- The mnemonic and the operand count of an opcode number, `none` above 21 (30_encoding.md R70, R82). -/
def opcodeText : Nat → Option (List Char × Nat)
  | 0 => some (['h', 'a', 'l', 't'], 0)
  | 1 => some (['s', 'e', 't'], 2)
  | 2 => some (['p', 'u', 's', 'h'], 1)
  | 3 => some (['p', 'o', 'p'], 1)
  | 4 => some (['e', 'q'], 3)
  | 5 => some (['g', 't'], 3)
  | 6 => some (['j', 'm', 'p'], 1)
  | 7 => some (['j', 't'], 2)
  | 8 => some (['j', 'f'], 2)
  | 9 => some (['a', 'd', 'd'], 3)
  | 10 => some (['m', 'u', 'l', 't'], 3)
  | 11 => some (['m', 'o', 'd'], 3)
  | 12 => some (['a', 'n', 'd'], 3)
  | 13 => some (['o', 'r'], 3)
  | 14 => some (['n', 'o', 't'], 2)
  | 15 => some (['r', 'm', 'e', 'm'], 2)
  | 16 => some (['w', 'm', 'e', 'm'], 2)
  | 17 => some (['c', 'a', 'l', 'l'], 1)
  | 18 => some (['r', 'e', 't'], 0)
  | 19 => some (['o', 'u', 't'], 1)
  | 20 => some (['i', 'n'], 1)
  | 21 => some (['n', 'o', 'o', 'p'], 0)
  | _ => none

/-- Operand texts, one space before each (30_encoding.md R81). -/
def operandTexts : List Cell → List Char
  | [] => []
  | w :: ws => (' ' :: operandText (.ofCell w)) ++ operandTexts ws

/-- The address prefix of a line (30_encoding.md R81). -/
def linePrefix (a : Nat) : List Char := decimal a ++ [':', ' ']

/-- One line at address `a`, which lies in memory, and the address after it; `none` where the memory ended inside the
instruction and the disassembly stops (30_encoding.md R81, R84, R85). -/
def disasmLine (m : Memory) (a : Nat) : List Char × Option Nat :=
  let op := (m.read a).toNat
  match opcodeText op with
  | none => (linePrefix a ++ ['I', 'L', 'L', 'O', 'P', ' '] ++ decimal op, some (a + 1))
  | some (name, n) =>
    let ws := m.window n (a + 1)
    let line := linePrefix a ++ name ++ operandTexts ws
    if ws.length = n then (line, some (a + 1 + n)) else (line ++ [' ', 'E', 'O', 'M'], none)

/-- The lines of the span of `stop - a` words from `a`; an instruction in progress is finished (30_encoding.md R85). The
first argument bounds the number of lines. DESIGN CHOICE, safe (log entry 23): R85 gives `EOM` for an operand read past
the end of memory only; where the next OPCODE address is 32768 or above with span left, the listing ends with no further
line. -/
def disasmLines (m : Memory) : Nat → Nat → Nat → List (List Char)
  | 0, _, _ => []
  | fuel + 1, a, stop =>
    if a < stop ∧ a < memWords then
      match disasmLine m a with
      | (line, some b) => line :: disasmLines m fuel b stop
      | (line, none) => [line]
    else []

/-- Disassembly of `span` words from address `a` (30_encoding.md R80 to R85). -/
def disassemble (m : Memory) (a span : Nat) : List (List Char) := disasmLines m span a (a + span)

end Sys2Proof.Machine
end

