-- ==== Sys2Proof/Tests/Slice0.lean ====
section
/-!
SUPPORT. Tests and witnesses. Expected results are those of 95_test_vectors.md (the vector is named beside each test) or
are written out by hand from the rule named. A witness theorem shows that a statement's hypotheses can be met together,
clause by clause.
-/

namespace Sys2Proof.Tests

open Sys2Proof Sys2Proof.Machine

/-! ## Helpers -/

/-- The reset state with words loaded from address 0. -/
def boot (ws : List Cell) : State := { State.reset with mem := Memory.place [] 0 ws }

/-- A running state at address `a0` with register 0, a stack, a line buffer and lined-up answers as given. -/
def at_ (a0 : Cell) (x0 : Word := 0) (stack : List Cell := []) (inbuf : List CodePoint := [])
    (source : List (Option (List CodePoint)) := []) : State :=
  { State.reset with
    pc := .running a0, regs := State.reset.regs.set 0 x0, stack := stack, inbuf := inbuf, source := source }

/-- A fault record. -/
def faultAt (kind : FaultKind) (addr : Cell) (info : BitVec 21 := 0) : Option FaultRecord :=
  some { kind := kind, addr := addr, info := info }

/-- The state after one step. -/
abbrev one (s : State) : State := afterStep s

/-! ## Well-formedness: each check refuses an ill-formed term -/

/-- An `invalid` that holds a valid word. -/
abbrev bad : Operand := .invalid 32775
/-- A well-formed operand. -/
abbrev ok : Operand := .invalid 32776

theorem test_operand_wf : ok.WellFormed = true ∧ bad.WellFormed = false ∧
    (Operand.invalid 5).WellFormed = false ∧ (Operand.lit 32767).WellFormed = true ∧
    (Operand.reg 7).WellFormed = true := by decide

theorem test_wf_refuses_first_operand :
    (Instr.set bad ok).WellFormed = false ∧ (Instr.push bad).WellFormed = false ∧
    (Instr.pop bad).WellFormed = false ∧ (Instr.eq bad ok ok).WellFormed = false ∧
    (Instr.gt bad ok ok).WellFormed = false ∧ (Instr.jmp bad).WellFormed = false ∧
    (Instr.jt bad ok).WellFormed = false ∧ (Instr.jf bad ok).WellFormed = false ∧
    (Instr.add bad ok ok).WellFormed = false ∧ (Instr.mult bad ok ok).WellFormed = false ∧
    (Instr.mod bad ok ok).WellFormed = false ∧ (Instr.and bad ok ok).WellFormed = false ∧
    (Instr.or bad ok ok).WellFormed = false ∧ (Instr.not bad ok).WellFormed = false ∧
    (Instr.rmem bad ok).WellFormed = false ∧ (Instr.wmem bad ok).WellFormed = false ∧
    (Instr.call bad).WellFormed = false ∧ (Instr.out bad).WellFormed = false ∧
    (Instr.input bad).WellFormed = false := by decide

theorem test_wf_refuses_second_operand :
    (Instr.set ok bad).WellFormed = false ∧ (Instr.eq ok bad ok).WellFormed = false ∧
    (Instr.gt ok bad ok).WellFormed = false ∧ (Instr.jt ok bad).WellFormed = false ∧
    (Instr.jf ok bad).WellFormed = false ∧ (Instr.add ok bad ok).WellFormed = false ∧
    (Instr.mult ok bad ok).WellFormed = false ∧ (Instr.mod ok bad ok).WellFormed = false ∧
    (Instr.and ok bad ok).WellFormed = false ∧ (Instr.or ok bad ok).WellFormed = false ∧
    (Instr.not ok bad).WellFormed = false ∧ (Instr.rmem ok bad).WellFormed = false ∧
    (Instr.wmem ok bad).WellFormed = false := by decide

theorem test_wf_refuses_third_operand :
    (Instr.eq ok ok bad).WellFormed = false ∧ (Instr.gt ok ok bad).WellFormed = false ∧
    (Instr.add ok ok bad).WellFormed = false ∧ (Instr.mult ok ok bad).WellFormed = false ∧
    (Instr.mod ok ok bad).WellFormed = false ∧ (Instr.and ok ok bad).WellFormed = false ∧
    (Instr.or ok ok bad).WellFormed = false := by decide

theorem test_wf_accepts :
    Instr.halt.WellFormed = true ∧ Instr.ret.WellFormed = true ∧ Instr.noop.WellFormed = true ∧
    (Instr.add ok ok ok).WellFormed = true ∧ (Instr.set ok ok).WellFormed = true ∧
    (Instr.push ok).WellFormed = true := by decide

/-! ## Decoding: every constructor's word, written out from the opcode map of 30_encoding.md R70 and the operand ranges
of R63 to R65 -/

theorem test_decode_halt_noop_ret :
    decode [0, 9] = .ok (.halt, [9]) ∧ decode [21, 9] = .ok (.noop, [9]) ∧ decode [18] = .ok (.ret, []) := by
  decide
theorem test_decode_set : decode [1, 32768, 5] = .ok (.set (.reg 0) (.lit 5), []) := by decide
theorem test_decode_push_pop :
    decode [2, 7] = .ok (.push (.lit 7), []) ∧ decode [3, 32768] = .ok (.pop (.reg 0), []) := by decide
theorem test_decode_eq : decode [4, 32769, 32768, 10] = .ok (.eq (.reg 1) (.reg 0) (.lit 10), []) := by decide
theorem test_decode_gt : decode [5, 32768, 32767, 0] = .ok (.gt (.reg 0) (.lit 32767) (.lit 0), []) := by decide
theorem test_decode_jmp : decode [6, 100] = .ok (.jmp (.lit 100), []) := by decide
theorem test_decode_jt_jf :
    decode [7, 32768, 50] = .ok (.jt (.reg 0) (.lit 50), []) ∧
    decode [8, 1, 40000] = .ok (.jf (.lit 1) (.invalid 40000), []) := by decide
theorem test_decode_add : decode [9, 32768, 4, 5] = .ok (.add (.reg 0) (.lit 4) (.lit 5), []) := by decide
theorem test_decode_mult : decode [10, 32775, 3, 5] = .ok (.mult (.reg 7) (.lit 3) (.lit 5), []) := by decide
theorem test_decode_mod : decode [11, 5, 32776, 0] = .ok (.mod (.lit 5) (.invalid 32776) (.lit 0), []) := by decide
theorem test_decode_and_or :
    decode [12, 32768, 1, 2] = .ok (.and (.reg 0) (.lit 1) (.lit 2), []) ∧
    decode [13, 32768, 1, 2] = .ok (.or (.reg 0) (.lit 1) (.lit 2), []) := by decide
theorem test_decode_not : decode [14, 32768, 21845] = .ok (.not (.reg 0) (.lit 21845), []) := by decide
theorem test_decode_rmem : decode [15, 32768, 32767] = .ok (.rmem (.reg 0) (.lit 32767), []) := by decide
theorem test_decode_wmem : decode [16, 32769, 32770] = .ok (.wmem (.reg 1) (.reg 2), []) := by decide
theorem test_decode_call : decode [17, 32769] = .ok (.call (.reg 1), []) := by decide
theorem test_decode_out_in :
    decode [19, 65] = .ok (.out (.lit 65), []) ∧ decode [20, 32768] = .ok (.input (.reg 0), []) := by decide

/-- Opcodes are whole words (R62): 22, 32768 and 65535 select nothing (V-F1 to V-F3). -/
theorem test_decode_rejects :
    decode [22] = .error (.illegalOpcode 22) ∧ decode [32768, 1] = .error (.illegalOpcode 32768) ∧
    decode [65535] = .error (.illegalOpcode 65535) ∧ decode [9, 32768] = .error (.missingOperand 2) ∧
    decode [] = .error .noOpcode := by decide

/-- The numbering of spec/opcode_table.json: bit 0 is the least significant bit of the first word. -/
theorem test_table_word :
    decodeTableWord 16 21 = some .noop ∧ decodeTableWord 16 9 = some (.add (.lit 0) (.lit 0) (.lit 0)) ∧
    decodeTableWord 32 (19 + 65 * 65536) = some (.out (.lit 65)) ∧ decodeTableWord 16 22 = none := by decide

/-! ## One step of each instruction -/

/-- V-H1, V-H3: the empty image halts; a second step reports `AlreadyHalted` and latches nothing. -/
theorem test_halt : (one (boot [])).pc = .halted ∧ (one (boot [])).steps = 1 ∧
    (one (boot [])).fault = none ∧ one (one (boot [])) = one (boot []) := by decide
/-- V-M2, V-M3. -/
theorem test_set : (one (boot [1, 32775, 32767])).regs[7] = 32767 ∧
    (one (boot [1, 32775, 32767])).pc = .running 3 := by decide
/-- V-M5, V-M7. -/
theorem test_set_faults : (one (boot [1, 5, 6])).fault = faultAt .immutableTarget 0 5 ∧
    (one (boot [1, 32776, 1])).fault = faultAt .outOfRange 0 32776 := by decide
/-- V-M9: the head of the model's list is the top. -/
theorem test_push : (one { boot [2, 32768] with regs := State.reset.regs.set 0 300, stack := [1] }).stack =
    [300, 1] := by decide
/-- 95_test_vectors.md section 2.3, below V-M16: the third push with `STACK_DEPTH = 2`. -/
theorem test_push_overflow :
    (one { boot [2, 3] with stack := [2, 1], cfg := { Config.default with stackDepth := some 2 } }).fault =
      faultAt .stackOverflow 0 := by decide
/-- V-M11. -/
theorem test_pop : (one { boot [3, 32768] with stack := [300, 1] }).regs[0] = 300 ∧
    (one { boot [3, 32768] with stack := [300, 1] }).stack = [1] := by decide
/-- V-M13, V-M14, V-M16. -/
theorem test_pop_faults : (one (boot [3, 5])).fault = faultAt .stackUnderflow 0 ∧
    (one { boot [3, 5] with stack := [1] }).fault = faultAt .immutableTarget 0 5 ∧
    (one { boot [3, 32768] with stack := [32768] }).fault = faultAt .invalidValue 0 32768 := by decide
/-- V-C1, V-C2, V-C8. -/
theorem test_eq : (one (boot [4, 32768, 5, 5])).regs[0] = 1 ∧
    (one { boot [4, 32768, 5, 6] with regs := State.reset.regs.set 0 9 }).regs[0] = 0 ∧
    (one (boot [4, 32768, 40000, 40001])).fault = faultAt .outOfRange 0 40000 := by decide
/-- V-C4 to V-C7: the comparison is unsigned. -/
theorem test_gt : (one (boot [5, 32768, 32767, 0])).regs[0] = 1 ∧
    (one { boot [5, 32768, 0, 32767] with regs := State.reset.regs.set 0 9 }).regs[0] = 0 ∧
    (one { boot [5, 32768, 5, 5] with regs := State.reset.regs.set 0 9 }).regs[0] = 0 := by decide
/-- V-J2. -/
theorem test_jmp : (one { boot [6, 32768] with regs := State.reset.regs.set 0 32767 }).pc =
    .running 32767 := by decide
/-- V-J5, V-J6, V-J7. -/
theorem test_jt : (one (boot [7, 1, 50])).pc = .running 50 ∧ (one (boot [7, 0, 50])).pc = .running 3 := by decide
/-- V-J11, V-J12: the target is resolved only when the jump is taken. -/
theorem test_jt_target : (one (boot [7, 0, 40000])).pc = .running 3 ∧
    (one (boot [7, 1, 40000])).fault = faultAt .outOfRange 0 40000 := by decide
/-- V-J9, V-J10. -/
theorem test_jf : (one { boot [8, 32768, 32769] with regs := State.reset.regs.set 1 9 }).pc = .running 9 ∧
    (one (boot [8, 1, 50])).pc = .running 3 := by decide
/-- V-J13, V-J14. -/
theorem test_jf_target : (one (boot [8, 1, 40000])).pc = .running 3 ∧
    (one (boot [8, 0, 40000])).fault = faultAt .outOfRange 0 40000 := by decide
/-- S1 and V-A3: both sources are read before the destination is written. -/
theorem test_add : (one (boot [9, 32768, 4, 5])).regs[0] = 9 ∧
    (one { boot [9, 32768, 32768, 32768] with regs := State.reset.regs.set 0 20000 }).regs[0] = 7232 := by decide
/-- V-A1, rows 32767 1 and 32758 15. -/
theorem test_add_wraps : (one (boot [9, 32769, 32767, 1])).regs[1] = 0 ∧
    (one (boot [9, 32769, 32758, 15])).regs[1] = 5 := by decide
/-- V-A1, rows 32767 32767 and 12345 6789. -/
theorem test_mult : (one (boot [10, 32768, 32767, 32767])).regs[0] = 1 ∧
    (one (boot [10, 32768, 12345, 6789])).regs[0] = 22429 := by decide
/-- V-A1, row 12345 6789. -/
theorem test_mod : (one (boot [11, 32768, 12345, 6789])).regs[0] = 5556 := by decide
/-- V-A5 to V-A7: the priority of faults. -/
theorem test_mod_faults : (one (boot [11, 5, 32776, 0])).fault = faultAt .outOfRange 0 32776 ∧
    (one (boot [11, 5, 7, 0])).fault = faultAt .arithmeticError 0 ∧
    (one (boot [11, 5, 7, 2])).fault = faultAt .immutableTarget 0 5 := by decide
/-- V-A1, rows 12345 6789 and 181 182. -/
theorem test_and : (one (boot [12, 32768, 12345, 6789])).regs[0] = 4097 ∧
    (one (boot [12, 32768, 181, 182])).regs[0] = 180 := by decide
/-- V-A1, rows 12345 6789 and 16384 2. -/
theorem test_or : (one (boot [13, 32768, 12345, 6789])).regs[0] = 15037 ∧
    (one (boot [13, 32768, 16384, 2])).regs[0] = 16386 := by decide
/-- V-A2. -/
theorem test_not : (one (boot [14, 32768, 0])).regs[0] = 32767 ∧
    (one (boot [14, 32768, 21845])).regs[0] = 10922 := by decide
/-- V-W1, V-W5: code and data are one array. -/
theorem test_rmem : (one (boot [15, 32768, 0])).regs[0] = 15 ∧
    (one { boot [15, 32768, 100] with mem := (boot [15, 32768, 100]).mem.write 100 32767 }).regs[0] =
      32767 := by decide
/-- V-W2, V-W10. -/
theorem test_rmem_faults : (one (boot [15, 32768, 1])).fault = faultAt .invalidValue 0 32768 ∧
    (one (boot [15, 5, 0])).fault = faultAt .immutableTarget 0 5 := by decide
/-- V-W7, V-W11: the instruction overwrites its own opcode word; the highest address. -/
theorem test_wmem : (one (boot [16, 0, 21])).mem = [(0, 21), (2, 21)] ∧
    (one (boot [16, 32767, 1])).mem.read 32767 = 1 := by decide
/-- V-W8, V-W9. -/
theorem test_wmem_faults : (one (boot [16, 40000, 40001])).fault = faultAt .outOfRange 0 40000 ∧
    (one (boot [16, 5, 40001])).fault = faultAt .outOfRange 0 40001 ∧
    (one (boot [16, 5, 40001])).mem.read 5 = 0 := by decide
/-- V-R2. -/
theorem test_call : (one { boot [17, 32769] with regs := State.reset.regs.set 1 300 }).stack = [2] ∧
    (one { boot [17, 32769] with regs := State.reset.regs.set 1 300 }).pc = .running 300 := by decide
/-- V-T3, its second step: a `call` at 32766 pushes 32768. -/
theorem test_call_at_top :
    (one { at_ 32766 with mem := [(32766, 17), (32767, 10)] }).stack = [32768] := by decide
/-- V-R4. -/
theorem test_ret : (one { boot [18] with stack := [7, 1] }).pc = .running 7 ∧
    (one { boot [18] with stack := [7, 1] }).stack = [1] := by decide
/-- V-R5: `ret` on an empty stack halts without a fault. -/
theorem test_ret_empty : (one (boot [18])).pc = .halted ∧ (one (boot [18])).fault = none ∧
    (one (boot [18])).steps = 1 := by decide
/-- V-I2, V-I3. -/
theorem test_out : (one (boot [19, 10])).out = [.emit 10, .flush] ∧
    (one (boot [19, 32767])).out = [.emit 32767] := by decide
/-- V-I6, V-I7: a line is pulled only into an empty buffer. -/
theorem test_in : (one { boot [20, 32768] with source := [some [104, 105, 10]] }).regs[0] = 104 ∧
    (one { boot [20, 32768] with source := [some [104, 105, 10]] }).inbuf = [105, 10] ∧
    (one { boot [20, 32768] with inbuf := [105, 10], source := [none] }).source = [none] := by decide
/-- V-I10 to V-I13: the end of input, the priority of faults, and the line kept. -/
theorem test_in_faults : (one { boot [20, 32768] with source := [some []] }).fault = faultAt .endOfInput 0 ∧
    (one { boot [20, 5] with source := [none] }).fault = faultAt .endOfInput 0 ∧
    (one { boot [20, 5] with source := [some [97, 10]] }).fault = faultAt .immutableTarget 0 5 ∧
    (one { boot [20, 5] with source := [some [97, 10]] }).inbuf = [97, 10] ∧
    (one { boot [20, 32768] with source := [some [40000, 10]] }).fault = faultAt .invalidValue 0 40000 := by decide
/-- S2. -/
theorem test_noop : one (boot [21]) = { boot [21] with pc := .running 1, steps := 1 } := by decide

/-! ## Fetch, latch, host operations, disassembler -/

/-- S3, V-X1: the fault is precise and stays latched. -/
theorem test_illegal : one (boot [99]) = { boot [99] with fault := faultAt .illegalInstruction 0 99 } ∧
    one (one (boot [99])) = one (boot [99]) := by decide
/-- V-T1, V-T2, V-T5: the top of memory. -/
theorem test_top :
    (one (at_ 32768)).fault = faultAt .fetchOutOfBounds 32768 32768 ∧
    (one { at_ 32767 with mem := [(32767, 1)] }).fault = faultAt .fetchOutOfBounds 32767 32768 ∧
    (one (at_ 32767)).pc = .halted := by decide
/-- V-T6: an instruction that ends at 32767 fits. -/
theorem test_top_fits : (one { at_ 32766 with mem := [(32766, 6)] }).pc = .running 0 := by decide
/-- V-B5, V-H4 and the reason of V-X2. -/
theorem test_run : runFor 0 (boot [21]) = (boot [21], .budget) ∧
    (runFor 1 (one (boot []))).2 = .halted ∧
    (runFor 2 (boot [3, 32768])).2 = .fault ⟨.stackUnderflow, 0, 0⟩ := by decide
/-- V-B3: a total already reached leaves no step. -/
theorem test_budget : (Budget.untilTotal 10).limit { State.reset with steps := 10 } = some 0 ∧
    (Budget.untilTotal 10).limit { State.reset with steps := 4 } = some 6 := by decide
/-- V-L1, V-L4. -/
theorem test_image_bytes : imageWords [0x09, 0x00, 0x00, 0x80, 0x04, 0x00, 0x05, 0x00] = some [9, 32768, 4, 5] ∧
    imageWords [0x15, 0x00, 0x00] = none := by decide
/-- V-X3: a reset leaves the fault behind, and an image can be loaded again. -/
theorem test_reset_load : load 0 0 (hostReset (one (boot [99]))) = .next State.reset := by rfl
/-- 10_state.md R30, R31: no load after the first step, a failed one included. -/
theorem test_load_late : load 5 1 (one (boot [21])) = .refused .loadAfterFirstStep ∧
    load 5 1 (one (boot [99])) = .refused .loadAfterFirstStep := ⟨rfl, rfl⟩
/-- S4, V-D2, V-D3, V-D4. -/
theorem test_disassemble :
    disassemble (boot [9, 32768, 4, 5]).mem 0 4 = ["0: add R0 4 5".toList] ∧
    disassemble (boot [99]).mem 0 1 = ["0: ILLOP 99".toList] ∧
    disassemble [(32766, 9), (32767, 32768)] 32766 2 = ["32766: add R0 EOM".toList] ∧
    disassemble (boot [7, 40000, 16384]).mem 0 3 = ["0: jt ?40000/R7232 -16384".toList] := by decide
/-- A written zero is not listed, and entries stand in rising order. -/
theorem test_memory_canonical : ((Memory.write [] 7 3).write 5 1).write 7 0 = [(5, 1)] ∧
    Memory.wf [(5, 1), (7, 3)] = true ∧ Memory.wf [(7, 3), (5, 1)] = false ∧ Memory.wf [(5, 0)] = false ∧
    Memory.wf [(32768, 1)] = false := by decide
/-- The word under `pc` runs as the first instruction after reset. -/
theorem test_withFetchWord : (one (State.reset.withFetchWord 16 21)).pc = .running 1 ∧
    (one (State.reset.withFetchWord 32 (19 + 65 * 65536))).out = [.emit 65] := by decide

/-- With no answer lined up `in` runs too: the free value decides what it reads. -/
theorem test_in_free_answer : ∃ t, step (State.reset.withFetchWord 32 (20 + 32768 * 65536)) = .next t := ⟨_, rfl⟩

/-! ## Witnesses: the hypotheses of each statement, met together, clause by clause, at boundary values -/

open Sys2Proof.Claims

/-- A state with something in every field: at address 100 with registers 0 to 6 and the largest Word, a return address
32768 on the stack, a raw cell, a character that is no Word, and room for one more stack cell. -/
def rich : State :=
  { State.reset with
    regs := #v[0, 1, 2, 3, 4, 5, 6, 32767], pc := .running 100, stack := [32768, 7],
    mem := [(5, 40000), (32767, 32767)], inbuf := [32767, 70000], source := [some [97, 10], none],
    steps := 3, cfg := { Config.default with stackDepth := some 3 } }

/-- `rich` with a full stack. -/
def full : State := { rich with cfg := { Config.default with stackDepth := some 2 } }

/-- `rich` with an empty line buffer and the given answers. -/
def dry (source : List (Option (List CodePoint))) : State := { rich with inbuf := [], source := source }

theorem witness_DecodeInvertsEncode :
    (Instr.add (.reg 7) (.lit 32767) (.invalid 32776)).WellFormed = true ∧
    (Instr.jt (.invalid 65535) (.lit 0)).WellFormed = true := by decide

theorem witness_EncodeInvertsDecode :
    decode [9, 32775, 32767, 65535, 1] = .ok (.add (.reg 7) (.lit 32767) (.invalid 65535), [1]) := by decide

theorem witness_OpcodeWordSelectsInstruction :
    (∃ i rest, decode [21, 0, 0, 0] = .ok (i, rest)) ∧ (21 : Cell).toNat ≤ 21 ∧ 21 < (22 : Cell).toNat ∧
    Running { at_ 32767 with mem := [(32767, 22)] } 32767 ∧ (32767 : Cell).toNat < 32768 ∧
    21 < (Memory.read [(32767, 22)] 32767).toNat := ⟨⟨.noop, [0, 0, 0], by decide⟩, by decide⟩

theorem witness_OperandWordKinds :
    (0 : Cell).toNat < 32768 ∧ (32767 : Cell).toNat < 32768 ∧
    (32768 ≤ (32768 : Cell).toNat ∧ (32768 : Cell).toNat < 32776) ∧
    (32768 ≤ (32775 : Cell).toNat ∧ (32775 : Cell).toNat < 32776) ∧
    32776 ≤ (32776 : Cell).toNat ∧ 32776 ≤ (65535 : Cell).toNat := by decide

theorem witness_StepRunsTheDecodedInstruction :
    Running { at_ 32767 with mem := [(32767, 21)] } 32767 ∧
    decode (Memory.window [(32767, 21)] 4 32767) = .ok (.noop, []) := by decide

theorem witness_StepRunsTheEncodedInstruction :
    Running { at_ 32766 with mem := [(32766, 19), (32767, 65)] } 32766 ∧
    (Instr.out (.lit 65)).WellFormed = true ∧
    ∀ k : Nat, k < (encode (.out (.lit 65))).length →
      32766 + k < 32768 ∧
      (encode (.out (.lit 65)))[k]? = some (Memory.read [(32766, 19), (32767, 65)] (32766 + k)) := by decide

theorem witness_IllegalOpcodeLatchesAddressAndValue :
    Running { at_ 32767 with mem := [(32767, 65535)] } 32767 ∧ (32767 : Cell).toNat < 32768 ∧
    21 < (Memory.read [(32767, 65535)] 32767).toNat := by decide

theorem witness_FetchPastTheTopFaults :
    Running (at_ 32768) 32768 ∧
    (Running { at_ 32766 with mem := [(32766, 7)] } 32766 ∧ (32766 : Cell).toNat < 32768 ∧
      arityColumn[(Memory.read [(32766, 7)] 32766).toNat]? = some 2 ∧ 32768 ≤ (32766 : Cell).toNat + 2) := by decide

theorem witness_FaultedOrHaltedMachineDoesNotStep :
    { State.reset with fault := faultAt .stackUnderflow 0 }.fault = some ⟨.stackUnderflow, 0, 0⟩ ∧
    ({ State.reset with pc := .halted }.fault = none ∧ { State.reset with pc := .halted }.pc = .halted) := by decide

theorem witness_FaultsArePrecise :
    Running rich 100 ∧ Running (dry [some [70000, 10]]) 100 ∧
    (∃ t r, exec (.set (.lit 5) (.lit 6)) rich = .next t ∧ t.fault = some r) ∧
    (∃ t r, exec (.input (.lit 5)) rich = .next t ∧ t.fault = some r) ∧ rich.inbuf ≠ [] ∧
    (∃ t r, exec (.input (.lit 5)) (dry [some [70000, 10]]) = .next t ∧ t.fault = some r) :=
  ⟨by decide, by decide, ⟨_, _, rfl, rfl⟩, ⟨_, _, rfl, rfl⟩, by decide, ⟨_, _, rfl, rfl⟩⟩

theorem witness_CommittedStepsAreCounted :
    (∃ t, exec .halt rich = .next t ∧ t.fault = none) ∧
    (∃ t, exec (.jmp (.invalid 32776)) rich = .next t ∧ t.fault ≠ none) :=
  ⟨⟨_, rfl, by decide⟩, ⟨_, rfl, by decide⟩⟩

theorem witness_HaltStopsTheMachine :
    Running rich 100 ∧ (100 : Cell).toNat < 32768 ∧ rich.mem.read (100 : Cell).toNat = 0 := by decide

/-- `set`, `not`: the shape of `UnaryLaw`. -/
theorem witness_SetCopiesASource :
    Running rich 100 ∧ operandValue rich (.reg 7) = some 32767 ∧ operandValue rich (.lit 0) = some 0 := by decide

theorem witness_NotIsTheComplement :
    Running rich 100 ∧ operandValue rich (.reg 0) = some 0 ∧ operandValue rich (.lit 32767) = some 32767 := by decide

theorem witness_PushPutsAWordOnTheStack :
    (Running rich 100 ∧ operandValue rich (.reg 7) = some 32767 ∧
      rich.cfg.stackDepth ≠ some rich.stack.length) ∧
    (Running full 100 ∧ operandValue full (.reg 7) = some 32767 ∧
      full.cfg.stackDepth = some full.stack.length) := by decide

theorem witness_PopTakesTheTop :
    (Running { rich with stack := [32767, 7] } 100 ∧ { rich with stack := [32767, 7] }.stack = 32767 :: [7] ∧
      (32767 : Cell).toNat < 32768) ∧
    (Running { rich with stack := [] } 100 ∧ { rich with stack := [] }.stack = []) ∧
    (Running rich 100 ∧ rich.stack = 32768 :: [7] ∧ 32768 ≤ (32768 : Cell).toNat) := by decide

/-- `eq`: both cases of the result. -/
theorem witness_EqWritesOneExactlyWhenEqual :
    Running rich 100 ∧ operandValue rich (.reg 7) = some 32767 ∧ operandValue rich (.lit 32767) = some 32767 ∧
    operandValue rich (.reg 0) = some 0 ∧ (32767 : Word) ≠ 0 := by decide

/-- `gt`: both cases of the result, at equality too. -/
theorem witness_GtWritesOneExactlyWhenGreater :
    Running rich 100 ∧ operandValue rich (.reg 7) = some 32767 ∧ operandValue rich (.lit 32767) = some 32767 ∧
    operandValue rich (.reg 6) = some 6 ∧ (32767 : Word).toNat > (6 : Word).toNat ∧
    (32767 : Word).toNat ≤ (32767 : Word).toNat := by decide

theorem witness_JmpGoesToItsOperand :
    Running rich 100 ∧ operandValue rich (.reg 7) = some 32767 ∧ operandValue rich (.lit 0) = some 0 := by decide

/-- `jt`: taken and not taken. -/
theorem witness_JtJumpsWhenNonzero :
    Running rich 100 ∧ operandValue rich (.reg 1) = some 1 ∧ (1 : Word).toNat ≠ 0 ∧
    operandValue rich (.reg 0) = some 0 ∧ ¬ (0 : Word).toNat ≠ 0 ∧
    operandValue rich (.lit 32767) = some 32767 := by decide

/-- `jf`: taken and not taken. -/
theorem witness_JfJumpsWhenZero :
    Running rich 100 ∧ operandValue rich (.reg 0) = some 0 ∧ (0 : Word).toNat = 0 ∧
    operandValue rich (.reg 1) = some 1 ∧ ¬ (1 : Word).toNat = 0 ∧
    operandValue rich (.lit 32767) = some 32767 := by decide

theorem witness_AddWritesTheSumModulo32768 :
    Running rich 100 ∧ operandValue rich (.reg 7) = some 32767 ∧ operandValue rich (.lit 1) = some 1 := by decide

theorem witness_MultWritesTheProductModulo32768 :
    Running rich 100 ∧ operandValue rich (.reg 7) = some 32767 ∧ operandValue rich (.lit 32767) = some 32767 := by
  decide

/-- `mod`: a divisor of one, and the zero divisor. -/
theorem witness_ModWritesTheRemainder :
    Running rich 100 ∧ operandValue rich (.reg 7) = some 32767 ∧ operandValue rich (.reg 1) = some 1 ∧
    (1 : Word).toNat ≠ 0 ∧ operandValue rich (.reg 0) = some 0 ∧ (0 : Word).toNat = 0 := by decide

theorem witness_AndIsBitwise :
    Running rich 100 ∧ operandValue rich (.reg 7) = some 32767 ∧ operandValue rich (.reg 0) = some 0 ∧ 14 < 15 := by
  decide

theorem witness_OrIsBitwise :
    Running rich 100 ∧ operandValue rich (.reg 7) = some 32767 ∧ operandValue rich (.reg 0) = some 0 ∧ 14 < 15 := by
  decide

/-- `rmem`: the highest cell, which holds the largest Word, and a cell that holds no Word. -/
theorem witness_RmemLoadsACell :
    (Running rich 100 ∧ operandValue rich (.reg 7) = some 32767 ∧
      (rich.mem.read (32767 : Word).toNat).toNat < 32768) ∧
    (operandValue rich (.lit 5) = some 5 ∧ 32768 ≤ (rich.mem.read (5 : Word).toNat).toNat) := by decide

theorem witness_WmemStoresACell :
    Running rich 100 ∧ rich.mem.wf = true ∧ operandValue rich (.reg 7) = some 32767 ∧
    operandValue rich (.lit 0) = some 0 := by decide

theorem witness_CallPushesTheReturnAddress :
    (Running rich 100 ∧ operandValue rich (.reg 7) = some 32767 ∧
      rich.cfg.stackDepth ≠ some rich.stack.length) ∧
    (Running full 100 ∧ operandValue full (.lit 0) = some 0 ∧
      full.cfg.stackDepth = some full.stack.length) := by decide

theorem witness_RetPopsOrHalts :
    (Running rich 100 ∧ rich.stack = 32768 :: [7]) ∧
    (Running { rich with stack := [] } 100 ∧ { rich with stack := [] }.stack = []) := by decide

/-- `out`: the newline and its neighbour. -/
theorem witness_OutEmitsItsOperand :
    Running rich 100 ∧ operandValue rich (.lit 10) = some 10 ∧ (10 : Word).toNat = 10 ∧
    operandValue rich (.lit 11) = some 11 ∧ (11 : Word).toNat ≠ 10 := by decide

/-- `in`: a buffered character, a pulled line, no line, the first code point that is no Word, and a failure. -/
theorem witness_InConsumesOneCharacter :
    (Running rich 100 ∧ rich.inbuf ≠ [] ∧ rich.inbuf = (32767 : CodePoint) :: [70000] ∧
      (32767 : CodePoint).val < 32768) ∧
    (Running (dry [some [32768]]) 100 ∧ (dry [some [32768]]).inbuf = [] ∧
      (nextAnswer (dry [some [32768]])).getD [] = (32768 : CodePoint) :: [] ∧ 32768 ≤ (32768 : CodePoint).val) ∧
    (Running (dry [none]) 100 ∧ (dry [none]).inbuf = [] ∧ (nextAnswer (dry [none])).getD [] = []) ∧
    (∃ t, exec (.input (.lit 5)) (dry [some [97, 10]]) = .next t ∧ t.fault ≠ none) :=
  ⟨by decide, by decide, by decide, ⟨_, rfl, by decide⟩⟩

theorem witness_NoopOnlyAdvances : Running rich 100 ∧ Running (at_ 32767) 32767 ∧ (32767 : Cell).toNat = 32767 := by
  decide

theorem witness_OnlyTheDestinationRegisterChanges :
    (∃ t, exec (.set (.reg 7) (.lit 5)) rich = .next t) ∧ destination (.set (.reg 7) (.lit 5)) ≠ some 0 ∧
    (∃ t, exec (.push (.reg 7)) rich = .next t) ∧ destination (.push (.reg 7)) ≠ some 7 :=
  ⟨⟨_, rfl⟩, by decide, ⟨_, rfl⟩, by decide⟩

theorem witness_OnlyTheStoredCellChanges :
    (∃ t, exec (.set (.reg 7) (.lit 5)) rich = .next t) ∧
    (∀ a b, Instr.set (.reg 7) (.lit 5) ≠ .wmem a b) ∧ rich.mem.wf = true ∧
    (∃ t, exec (.wmem (.reg 7) (.lit 5)) rich = .next t) ∧ rdOp rich (.reg 7) = .ok 32767 ∧
    5 ≠ (32767 : Word).toNat ∧
    (∃ t, exec (.wmem (.invalid 32776) (.lit 5)) rich = .next t) ∧
    (∃ r, rdOp rich (.invalid 32776) = .error r) :=
  ⟨⟨_, rfl⟩, fun _ _ h => (by cases h), by decide, ⟨_, rfl⟩, rfl, by decide, ⟨_, rfl⟩, ⟨_, rfl⟩⟩

theorem witness_OnlyStackInstructionsChangeTheStack :
    (∃ t, exec .noop rich = .next t) ∧ (∀ a, Instr.noop ≠ .push a) ∧ (∀ a, Instr.noop ≠ .pop a) ∧
    (∀ a, Instr.noop ≠ .call a) ∧ Instr.noop ≠ .ret ∧ (∃ t, exec (.push (.reg 7)) rich = .next t) ∧
    (∃ t, exec .ret rich = .next t) :=
  ⟨⟨_, rfl⟩, fun _ h => (by cases h), fun _ h => (by cases h), fun _ h => (by cases h), by decide, ⟨_, rfl⟩, ⟨_, rfl⟩⟩

theorem witness_OnlyInAndOutTouchTheEnvironment :
    (∃ t, exec (.out (.lit 10)) rich = .next t) ∧ (∀ a, Instr.out (.lit 10) ≠ .input a) ∧
    (∃ t, exec (.input (.reg 0)) rich = .next t) ∧ (∀ a, Instr.input (.reg 0) ≠ .out a) :=
  ⟨⟨_, rfl⟩, fun _ h => (by cases h), ⟨_, rfl⟩, fun _ h => (by cases h)⟩

theorem inv_of_checks {s : State} (h : s.mem.wf = true ∧ pcLegal s.pc = true ∧
    (s.stack.all fun c => decide (c.toNat ≤ memWords)) = true ∧
    depthLegal s.cfg.stackDepth s.stack.length = true ∧ faultLegal s.pc s.fault = true) : s.Inv :=
  ⟨h.1, h.2.1, by simpa using h.2.2.1, h.2.2.2⟩

/-- A step that writes memory, and one that latches the largest opcode word. -/
theorem witness_StepKeepsTheInvariant :
    ({ rich with mem := [(100, 16), (101, 32775), (102, 1)] } : State).Inv ∧
    (∃ t, step { rich with mem := [(100, 16), (101, 32775), (102, 1)] } = .next t) ∧
    ({ rich with mem := [(100, 65535)] } : State).Inv ∧
    (∃ t, step { rich with mem := [(100, 65535)] } = .next t) :=
  ⟨inv_of_checks (by decide), ⟨_, rfl⟩, inv_of_checks (by decide), ⟨_, rfl⟩⟩

theorem witness_OnlyHaltAndEmptyRetHalt :
    (∃ t, step rich = .next t ∧ t.pc = .halted) ∧
    (∃ t, step { at_ 32767 with mem := [(32767, 18)] } = .next t ∧ t.pc = .halted) :=
  ⟨⟨_, rfl, rfl⟩, ⟨_, rfl, rfl⟩⟩

theorem witness_OnlyWmemChangesMemory :
    ({ rich with mem := [(100, 16), (101, 32775), (102, 1)] } : State).mem.wf = true ∧
    (∃ t, step { rich with mem := [(100, 16), (101, 32775), (102, 1)] } = .next t ∧
      t.mem.read 32767 ≠ ({ rich with mem := [(100, 16), (101, 32775), (102, 1)] } : State).mem.read 32767) :=
  ⟨by decide, ⟨_, rfl, by decide⟩⟩

theorem witness_OutputOnlyGrows :
    (∃ t, step { rich with mem := [(100, 19), (101, 10)] } = .next t ∧ t.out = [.emit 10, .flush]) ∧
    (∃ t, step rich = .next t ∧ t.out = []) := ⟨⟨_, rfl, by decide⟩, ⟨_, rfl, by decide⟩⟩

theorem witness_CallThenRetReturnsBehindTheCall :
    Running rich 100 ∧ operandValue rich (.reg 7) = some 32767 ∧
    rich.cfg.stackDepth ≠ some rich.stack.length := by decide

theorem witness_PopAfterPushRestoresTheStack :
    Running rich 100 ∧ operandValue rich (.reg 7) = some 32767 ∧
    rich.cfg.stackDepth ≠ some rich.stack.length := by decide

theorem witness_RmemAfterWmemReturnsTheValue :
    Running rich 100 ∧ rich.mem.wf = true ∧ operandValue rich (.reg 7) = some 32767 ∧
    operandValue rich (.reg 0) = some 0 ∧ operandValue rich (.lit 32767) = some 32767 := by decide

theorem witness_InConsumesTheStreamInOrder :
    (rich.inbuf ≠ [] ∧ ∃ t, exec (.input (.reg 0)) rich = .next t ∧ t.fault = none) ∧
    ((dry [some [97, 10]]).source ≠ [] ∧
      ∃ t r, exec (.input (.lit 5)) (dry [some [97, 10]]) = .next t ∧ t.fault = some r ∧ r.kind ≠ .endOfInput) :=
  ⟨⟨by decide, ⟨_, rfl, by decide⟩⟩, ⟨by decide, ⟨_, _, rfl, rfl, by decide⟩⟩⟩

/-- A budget that ends a run, also one of no step. -/
theorem witness_BudgetStopIsAPause :
    (runFor 1 (boot [21])).2 = .budget ∧ (runFor 0 rich).2 = .budget := by decide

/-- All three reasons. -/
theorem witness_RunStopsForATrueReason :
    (runFor 1 rich).2 = .halted ∧ (runFor 1 (boot [99])).2 = .fault ⟨.illegalInstruction, 0, 99⟩ ∧
    (runFor 0 rich).2 = .budget := by decide

theorem witness_RunResultIsUnique :
    Runs .unbounded rich (runFor 1 rich) ∧ Runs .unbounded rich (runFor 2 rich) ∧
    Runs (.steps 0) rich (rich, .budget) ∧ Runs (.untilTotal 3) rich (rich, .budget) :=
  ⟨⟨1, rfl, by decide⟩, ⟨2, rfl, by decide⟩, rfl, rfl⟩

theorem witness_ImageLoadsFromAddressZero :
    [(65535 : Cell), 0, 1].length ≤ 32768 ∧ (List.replicate 32769 (1 : Cell)).length > 32768 ∧
    (List.replicate 32768 (1 : Cell)).length ≤ 32768 ∧ rich.steps ≠ 0 :=
  ⟨by decide, by rw [List.length_replicate]; decide, by rw [List.length_replicate], by decide⟩

theorem witness_ImageBytesAreLittleEndian :
    [(0x15 : BitVec 8), 0, 0].length % 2 = 1 ∧ [(0x15 : BitVec 8)].length % 2 = 1 := by decide

end Sys2Proof.Tests
end

/-! # Proofs: encoding -/

namespace Sys2Proof

/-- R61, R62: with the three operand words of the longest format behind it, an opcode word of the map R70 always
gives an instruction. The cases are the rows of the map. -/
theorem decode_four_words {op : Cell} (a b c : Cell) (h : op.toNat ≤ 21) :
    ∃ i rest, decode [op, a, b, c] = .ok (i, rest) := by
  simp only [decode]
  interval_cases op.toNat
  all_goals exact ⟨_, _, rfl⟩

/-- R62: four words decode exactly when the first is at most 21. -/
theorem decode_four_words_iff (op a b c : Cell) :
    (∃ i rest, decode [op, a, b, c] = .ok (i, rest)) ↔ op.toNat ≤ 21 := by
  refine ⟨fun ⟨i, rest, h⟩ => ?_, decode_four_words a b c⟩
  by_contra hop
  rw [decode_illegal [a, b, c] (by omega)] at h
  cases h

namespace Machine

/-- Inside memory a window begins with the cell at its address (R46). -/
theorem window_succ (m : Memory) (n : Nat) {a : Nat} (ha : a < memWords) :
    m.window (n + 1) a = m.read a :: m.window n (a + 1) := by
  simp only [Memory.window, ha, if_true]

/-- R62, R91: the fetch of an opcode word above 21 raises `IllegalInstruction` with that word, whatever stands behind
it. -/
theorem fetch_illegal {s : State} {a0 : Cell} (ha : a0.toNat < memWords) (hop : 21 < (s.mem.read a0.toNat).toNat) :
    fetch s a0 =
      .error { kind := .illegalInstruction, info := BitVec.ofNat 21 (s.mem.read a0.toNat).toNat } := by
  have hd : decode (s.mem.window 4 a0.toNat) = .error (.illegalOpcode (s.mem.read a0.toNat)) := by
    rw [window_succ _ _ ha]
    exact decode_illegal _ hop
  simp only [fetch, hd, raise]

/-- R62, R97: a step on an opcode word above 21 latches that fault. -/
theorem step_illegal {s : State} {a0 : Cell} (hs : Running s a0) (ha : a0.toNat < memWords)
    (hop : 21 < (s.mem.read a0.toNat).toNat) :
    step s = .next (latch s a0
      { kind := .illegalInstruction, info := BitVec.ofNat 21 (s.mem.read a0.toNat).toNat }) :=
  step_of_fetch_error hs (fetch_illegal ha hop)

/-- The 21 bits of a latch's extra value hold every 16-bit word exactly (R201). -/
theorem info_toNat_of_cell (w : Cell) : (BitVec.ofNat 21 w.toNat).toNat = w.toNat := by
  rw [BitVec.toNat_ofNat]
  omega

end Machine

open Sys2Proof.Machine

/-- Settles O4: the rows of the map and the rejection above 21 give the two directions, and the step latches what the
fetch of an opcode word above 21 raises. -/
theorem opcodeWordSelectsInstruction : Obligations.OpcodeWordSelectsInstruction := by
  refine ⟨decode_four_words_iff, fun _ ws h => decode_illegal ws h, fun s a0 hs ha hop => ?_⟩
  exact ⟨_, _, step_illegal hs ha hop, latch_fault .., rfl, info_toNat_of_cell _⟩

/-- Settles O5: one clause per kind of operand word; 32768 being a multiple of 8, a register's index is
the word's low three bits. -/
theorem operandWordKinds : Obligations.OperandWordKinds := by
  refine fun w => ⟨fun hlit => ?literal, fun hlo hhi => ?register, ofCell_invalid⟩
  case literal =>
    refine ⟨_, ofCell_lit hlit, ?_⟩
    rw [BitVec.toNat_setWidth]
    exact Nat.mod_eq_of_lt hlit
  case register =>
    refine ⟨_, ofCell_reg hlo hhi, rfl, ?_⟩
    show w.toNat - 32768 = w.toNat % 8
    omega

end Sys2Proof

/-! # Proofs: halt and noop -/

namespace Sys2Proof

namespace Machine

/-- R90 (2): the halted machine refuses the step and reports `AlreadyHalted`. -/
theorem step_of_halted {s : State} (hf : s.fault = none) (hp : s.pc = .halted) : step s = .fault .alreadyHalted := by
  have he : entry s = .error .alreadyHalted := entry_error_iff.2 (.inr ⟨hf, hp, rfl⟩)
  simp only [step, he]

/-- R90: a refused entry changes nothing. -/
theorem afterStep_of_fault {s : State} {f : Fault} (h : step s = .fault f) : afterStep s = s := by
  simp only [afterStep, h]

/-- R46: nothing stands at or above the end of memory. -/
theorem window_of_top_le (m : Memory) (n : Nat) {a : Nat} (ha : memWords ≤ a) : m.window n a = [] := by
  refine List.eq_nil_of_length_eq_zero ?_
  rw [window_length]
  omega

/-- R91: the fetch of an opcode word at or above the end of memory raises `FetchOutOfBounds` with the address. -/
theorem fetch_of_top_le (s : State) {a0 : Cell} (ha : memWords ≤ a0.toNat) :
    fetch s a0 = .error { kind := .fetchOutOfBounds, info := BitVec.ofNat 21 a0.toNat } := by
  have hd : decode (s.mem.window 4 a0.toNat) = .error .noOpcode := by
    rw [window_of_top_le _ _ ha]
    rfl
  simp only [fetch, hd, raise]

/-- R91, R97: a step at or above the end of memory latches that fault. -/
theorem step_of_top_le {s : State} {a0 : Cell} (hs : Running s a0) (ha : memWords ≤ a0.toNat) :
    step s = .next (latch s a0 { kind := .fetchOutOfBounds, info := BitVec.ofNat 21 a0.toNat }) :=
  step_of_fetch_error hs (fetch_of_top_le s ha)

/-- R70, R110: a zero cell is fetched as `halt`, whatever stands behind it. -/
theorem fetch_zero_cell {s : State} {a0 : Cell} (ha : a0.toNat < memWords) (hz : s.mem.read a0.toNat = 0) :
    fetch s a0 = .ok .halt := by
  refine fetch_ok_iff.2 ⟨s.mem.window 3 (a0.toNat + 1), ?_⟩
  rw [window_succ _ _ ha, hz]
  rfl

/-- R93: an instruction without operands falls through to the next cell. -/
@[simp] theorem nextAddr_zero (a0 : Cell) : nextAddr a0 0 = a0 + 1 := BitVec.add_zero _

/-- R95: an action that asks for no more than a new `pc` changes `pc` and the step counter and nothing else. -/
theorem commit_pc_only (s : State) (n : Cell) (p : Option Pc) :
    commit s n { pc := p } = { s with pc := p.getD (.running n), steps := s.steps + 1 } := by
  simp [commit]

/-- R110: `halt` sets `pc` to the halted sentinel, and the step is counted. -/
theorem exec_halt_running {s : State} {a0 : Cell} (hs : Running s a0) :
    exec .halt s = .next { s with pc := .halted, steps := s.steps + 1 } := by
  rw [exec_halt, perform_commits hs.1 hs.2 rfl, commit_pc_only]
  rfl

/-- R111: `noop` moves `pc` on by one cell, and the step is counted. -/
theorem exec_noop_running {s : State} {a0 : Cell} (hs : Running s a0) :
    exec .noop s = .next { s with pc := .running (a0 + 1), steps := s.steps + 1 } := by
  rw [exec_noop, perform_commits hs.1 hs.2 rfl, commit_pc_only, nextAddr_zero]
  rfl

end Machine

open Sys2Proof.Machine Sys2Proof.Claims

/-- Settles O13: the state `halt` answers, which the next step finds halted, and the fetch of a zero cell. -/
theorem haltStopsTheMachine : Obligations.HaltStopsTheMachine := by
  refine ⟨rfl, fun s a0 hs => ⟨?halts, fun ha hz => step_of_fetch hs (fetch_zero_cell ha hz)⟩⟩
  case halts =>
    have hstop : step { s with pc := .halted, steps := s.steps + 1 } = .fault .alreadyHalted :=
      step_of_halted hs.1 rfl
    exact ⟨_, exec_halt_running hs, rfl, hs.1, rfl, fun _ => rfl, rfl, fun _ => rfl, rfl, rfl, hstop,
      afterStep_of_fault hstop⟩

/-- Settles O34: the state `noop` answers; from the last cell it runs on at 32768, where the next fetch raises. -/
theorem noopOnlyAdvances : Obligations.NoopOnlyAdvances := by
  refine ⟨rfl, fun s a0 hs => ?_⟩
  refine ⟨_, exec_noop_running hs, rfl, hs.1, rfl, fun _ => rfl, rfl, fun _ => rfl, rfl, rfl, fun hlast => ?_⟩
  have htop : (a0 + 1).toNat = 32768 := by rw [BitVec.toNat_add, hlast]; rfl
  refine ⟨_, _, step_of_top_le ⟨hs.1, rfl⟩ htop.ge, latch_fault .., rfl, ?_⟩
  exact (info_toNat_of_cell _).trans htop

end Sys2Proof

/-! # Proofs: set -/

namespace Sys2Proof

namespace Machine

open Sys2Proof.Claims

/-- The 21 bits of a latch's extra value hold every Word exactly (R201). -/
theorem info_toNat_of_word (v : Word) : (BitVec.ofNat 21 v.toNat).toNat = v.toNat := by
  have := word_lt v
  rw [BitVec.toNat_ofNat]
  omega

/-- R93: an instruction of two operands falls through three cells on. -/
@[simp] theorem nextAddr_two (a0 : Cell) : nextAddr a0 2 = a0 + 3 := BitVec.add_assoc a0 1 2

/-- R97: a latched fault is raised with its kind and its extra value. -/
theorem raises_latch (s : State) (a0 : Cell) (k : FaultKind) {info : BitVec 21} {n : Nat} (h : info.toNat = n) :
    Raises (.next (latch s a0 { kind := k, info := info })) k n :=
  ⟨_, _, rfl, latch_fault .., rfl, h⟩

/-- R95: an action that asks for no more than a register write changes that register, `pc` and the step counter. -/
theorem commit_reg_writesOnly {s : State} {P : Word → Prop} {v : Word} (hf : s.fault = none) (next : Cell) (r : RegIx)
    (hP : P v) : WritesOnly (.next (commit s next { reg := some (r, v) })) s r P next :=
  have hset : SetsReg s (commit s next { reg := some (r, v) }) r v :=
    ⟨regs_set_self .., fun _ hq => regs_set_other _ _ hq⟩
  ⟨_, v, rfl, hP, hset, rfl, hf, rfl, fun _ => rfl, rfl, List.append_nil _⟩

section unary

variable {s : State} {a0 : Cell} {f : Word → Nat} {b : Operand} {vb : Word}

/-- R66, R67: a resolved source and a register destination write the result, when it is a Word. -/
theorem unaryOp_writesOnly {P : Word → Prop} (hs : Running s a0) (r : RegIx) (hb : operandValue s b = some vb)
    (hf : f vb < 32768) (hP : P (BitVec.ofNat 15 (f vb))) :
    WritesOnly (unaryOp f (.reg r) b s) s r P (a0 + 3) := by
  rw [unaryOp_commits hs (rdOp_of_value hb) (wrOp_reg r hf), nextAddr_two]
  exact commit_reg_writesOnly hs.1 _ r hP

/-- R66: an invalid source raises `OutOfRange`, whatever the destination. -/
theorem unaryOp_invalid_source (hs : Running s a0) (a : Operand) (w : Cell) :
    Raises (unaryOp f a (.invalid w) s) .outOfRange w.toNat := by
  rw [unaryOp_raises_source hs (rdOp_invalid s w)]
  exact raises_latch _ _ _ (info_toNat_of_cell w)

/-- R67: behind a resolved source and a result that is a Word, a literal destination raises `ImmutableTarget`. -/
theorem unaryOp_lit_destination (hs : Running s a0) (x : Word) (hb : operandValue s b = some vb) (hf : f vb < 32768) :
    Raises (unaryOp f (.lit x) b s) .immutableTarget x.toNat := by
  rw [unaryOp_raises_write hs (rdOp_of_value hb) (wrOp_lit x hf)]
  exact raises_latch _ _ _ (info_toNat_of_word x)

/-- R67: behind a resolved source and a result that is a Word, an invalid destination raises `OutOfRange`. -/
theorem unaryOp_invalid_destination (hs : Running s a0) (w : Cell) (hb : operandValue s b = some vb)
    (hf : f vb < 32768) : Raises (unaryOp f (.invalid w) b s) .outOfRange w.toNat := by
  rw [unaryOp_raises_write hs (rdOp_of_value hb) (wrOp_invalid w hf)]
  exact raises_latch _ _ _ (info_toNat_of_cell w)

end unary

/-- An instruction `a <- f(b)` whose results are all Words follows the law of its shape, with whatever `P` says of every
result. -/
theorem unaryLaw_of_unaryOp {op : Cell} {mk : Operand → Operand → Instr} {f : Word → Nat} {P : Word → Word → Prop}
    (hencode : ∀ a b, encode (mk a b) = [op, a.toCell, b.toCell])
    (hexec : ∀ a b s, exec (mk a b) s = unaryOp f a b s)
    (hf : ∀ vb, f vb < 32768) (hP : ∀ vb, P vb (BitVec.ofNat 15 (f vb))) : UnaryLaw op mk P := by
  refine ⟨hencode, fun s a0 hs => ?_⟩
  simp only [hexec]
  exact ⟨fun r _ vb hb => unaryOp_writesOnly hs r hb (hf vb) (hP vb),
    unaryOp_invalid_source hs,
    fun x _ vb hb => unaryOp_lit_destination hs x hb (hf vb),
    fun w _ vb hb => unaryOp_invalid_destination hs w hb (hf vb)⟩

end Machine

open Sys2Proof.Machine

/-- Settles O14: `set` is the unary shape with the source's own value as its result, which is always a Word. -/
theorem setCopiesASource : Obligations.SetCopiesASource :=
  unaryLaw_of_unaryOp (fun _ _ => rfl) exec_set word_lt fun vb => (BitVec.ofNat_toNat 15 vb).trans vb.setWidth_eq

end Sys2Proof

/-! # Proofs: eq and gt -/

namespace Sys2Proof

namespace Machine

open Sys2Proof.Claims

/-- R93: an instruction of three operands falls through four cells on. -/
@[simp] theorem nextAddr_three (a0 : Cell) : nextAddr a0 3 = a0 + 4 := BitVec.add_assoc a0 1 3

/-- R67: a register takes any Word. -/
theorem wrOp_reg_word (r : RegIx) (v : Word) : wrOp (.reg r) v.toNat = .ok (r, v) := by
  rw [wrOp_reg r (word_lt v), BitVec.ofNat_toNat, BitVec.setWidth_eq]

section binary

variable {s : State} {a0 : Cell} {f : Word → Word → Except Raise Nat} {b c : Operand} {vb vc v : Word}

/-- R66: an invalid first source raises `OutOfRange`, whatever the other operands. -/
theorem binaryOp_invalid_first (hs : Running s a0) (a : Operand) (w : Cell) (c : Operand) :
    Raises (binaryOp f a (.invalid w) c s) .outOfRange w.toNat := by
  rw [binaryOp_raises_first hs (rdOp_invalid s w)]
  exact raises_latch _ _ _ (info_toNat_of_cell w)

/-- R66: behind a resolved first source, an invalid second one raises `OutOfRange`, whatever the destination. -/
theorem binaryOp_invalid_second (hs : Running s a0) (a : Operand) (w : Cell) (hb : operandValue s b = some vb) :
    Raises (binaryOp f a b (.invalid w) s) .outOfRange w.toNat := by
  rw [binaryOp_raises_second hs (rdOp_of_value hb) (rdOp_invalid s w)]
  exact raises_latch _ _ _ (info_toNat_of_cell w)

/-- R66, R67: resolved sources and a register destination write the Word the operation gives. -/
theorem binaryOp_writesOnly {P : Word → Prop} (hs : Running s a0) (r : RegIx) (hb : operandValue s b = some vb)
    (hc : operandValue s c = some vc) (hv : f vb vc = .ok v.toNat) (hP : P v) :
    WritesOnly (binaryOp f (.reg r) b c s) s r P (a0 + 4) := by
  rw [binaryOp_commits hs (rdOp_of_value hb) (rdOp_of_value hc) hv (wrOp_reg_word r v), nextAddr_three]
  exact commit_reg_writesOnly hs.1 _ r hP

/-- R67: where the operation gives a Word, a literal destination raises `ImmutableTarget`. -/
theorem binaryOp_lit_destination (hs : Running s a0) (x : Word) (hb : operandValue s b = some vb)
    (hc : operandValue s c = some vc) (hv : f vb vc = .ok v.toNat) :
    Raises (binaryOp f (.lit x) b c s) .immutableTarget x.toNat := by
  rw [binaryOp_raises_write hs (rdOp_of_value hb) (rdOp_of_value hc) hv (wrOp_lit x (word_lt v))]
  exact raises_latch _ _ _ (info_toNat_of_word x)

/-- R67: where the operation gives a Word, an invalid destination raises `OutOfRange`. -/
theorem binaryOp_invalid_destination (hs : Running s a0) (w : Cell) (hb : operandValue s b = some vb)
    (hc : operandValue s c = some vc) (hv : f vb vc = .ok v.toNat) :
    Raises (binaryOp f (.invalid w) b c s) .outOfRange w.toNat := by
  rw [binaryOp_raises_write hs (rdOp_of_value hb) (rdOp_of_value hc) hv (wrOp_invalid w (word_lt v))]
  exact raises_latch _ _ _ (info_toNat_of_cell w)

end binary

/-- An instruction `a <- f(b, c)` follows the law of its shape when, wherever it is defined, its operation gives a Word
of which `P` holds. -/
theorem binaryLaw_of_binaryOp {op : Cell} {mk : Operand → Operand → Operand → Instr}
    {f : Word → Word → Except Raise Nat} {defined : Word → Prop} {P : Word → Word → Word → Prop}
    (hencode : ∀ a b c, encode (mk a b c) = [op, a.toCell, b.toCell, c.toCell])
    (hexec : ∀ a b c s, exec (mk a b c) s = binaryOp f a b c s)
    (hf : ∀ vb vc, defined vc → ∃ v : Word, f vb vc = .ok v.toNat ∧ P vb vc v) : BinaryLaw op mk defined P := by
  refine ⟨hencode, fun s a0 hs => ?_⟩
  simp only [hexec]
  refine ⟨fun r b c vb vc hb hc hd => ?result, binaryOp_invalid_first hs,
    fun a b vb w hb => binaryOp_invalid_second hs a w hb,
    fun x b c vb vc hb hc hd => ?literal, fun w b c vb vc hb hc hd => ?invalid⟩
  all_goals obtain ⟨v, hv, hP⟩ := hf vb vc hd
  case result => exact binaryOp_writesOnly hs r hb hc hv hP
  case literal => exact binaryOp_lit_destination hs x hb hc hv
  case invalid => exact binaryOp_invalid_destination hs w hb hc hv

/-- R130: equal Words compare to 1. -/
theorem eqValue_of_eq {vb vc : Word} (h : vb = vc) : eqValue vb vc = 1 := if_pos h

/-- R130: different Words compare to 0. -/
theorem eqValue_of_ne {vb vc : Word} (h : vb ≠ vc) : eqValue vb vc = 0 := if_neg h

/-- R131: a first Word that is greater, unsigned, compares to 1. -/
theorem gtValue_of_gt {vb vc : Word} (h : vb.toNat > vc.toNat) : gtValue vb vc = 1 := if_pos h

/-- R131: a first Word that is at most the second, unsigned, compares to 0. -/
theorem gtValue_of_le {vb vc : Word} (h : vb.toNat ≤ vc.toNat) : gtValue vb vc = 0 := if_neg h.not_gt

end Machine

open Sys2Proof.Machine

/-- Settles O17: `eq` is the binary shape whose result is the Word 1 on equal sources and the Word 0 on different
ones. -/
theorem eqWritesOneExactlyWhenEqual : Obligations.EqWritesOneExactlyWhenEqual := by
  refine binaryLaw_of_binaryOp (fun _ _ _ => rfl) exec_eq fun vb vc _ => ?_
  by_cases h : vb = vc
  · exact ⟨1, congrArg _ (eqValue_of_eq h), fun _ => rfl, fun hne => absurd h hne⟩
  · exact ⟨0, congrArg _ (eqValue_of_ne h), fun heq => absurd heq h, fun _ => rfl⟩

/-- Settles O18: `gt` is the binary shape whose result is the Word 1 on a strictly greater first source and the Word 0
on any other, equality included. -/
theorem gtWritesOneExactlyWhenGreater : Obligations.GtWritesOneExactlyWhenGreater := by
  refine binaryLaw_of_binaryOp (fun _ _ _ => rfl) exec_gt fun vb vc _ => ?_
  rcases Nat.lt_or_ge vc.toNat vb.toNat with h | h
  · exact ⟨1, congrArg _ (gtValue_of_gt h), fun _ => rfl, fun hle => absurd h hle.not_gt⟩
  · exact ⟨0, congrArg _ (gtValue_of_le h), fun hgt => absurd hgt h.not_gt, fun _ => rfl⟩

end Sys2Proof

/-! # Proofs: jmp -/

namespace Sys2Proof

namespace Machine

open Sys2Proof.Claims

/-- R95, R140: an action that asks for no more than a new `pc` is a control transfer to it, or to `n` where it asks for
nothing. -/
theorem commit_pc_goesTo {s : State} (hf : s.fault = none) (n : Cell) (p : Option Pc) :
    GoesTo (.next (commit s n { pc := p })) s (p.getD (.running n)) := by
  rw [commit_pc_only]
  exact ⟨_, rfl, rfl, hf, fun _ => rfl, rfl, fun _ => rfl, rfl, rfl⟩

/-- R140: `jmp` commits its resolved operand as the new `pc`. -/
theorem exec_jmp_commits {s : State} {a0 : Cell} {a : Operand} {v : Word} (hs : Running s a0)
    (ha : rdOp s a = .ok v) :
    exec (.jmp a) s = .next (commit s (nextAddr a0 1) { pc := some (.running (v.setWidth 16)) }) := by
  rw [exec_jmp, ha]
  exact perform_commits hs.1 hs.2 rfl

/-- R66, R97: `jmp` latches what the reading of its operand raises. -/
theorem exec_jmp_raises {s : State} {a0 : Cell} {a : Operand} {r : Raise} (hs : Running s a0)
    (ha : rdOp s a = .error r) : exec (.jmp a) s = .next (latch s a0 r) := by
  rw [exec_jmp, ha]
  exact perform_raises hs.1 hs.2 rfl

end Machine

open Sys2Proof.Machine

/-- Settles O19: a resolved operand is committed as the new `pc` and nothing else, an invalid one is latched as
`OutOfRange`. -/
theorem jmpGoesToItsOperand : Obligations.JmpGoesToItsOperand := by
  refine ⟨fun _ => rfl, fun s a0 hs => ⟨fun a v ha => ?resolved, fun w => ?invalid⟩⟩
  case resolved =>
    rw [exec_jmp_commits hs (rdOp_of_value ha)]
    exact commit_pc_goesTo hs.1 _ _
  case invalid =>
    rw [exec_jmp_raises hs (rdOp_invalid s w)]
    exact raises_latch _ _ _ (info_toNat_of_cell w)

end Sys2Proof

/-! # Proofs: add, mult, mod, and, or, not -/

namespace Sys2Proof

namespace Machine

/-- R150: the sum reduced modulo 32768 is the sum of Words. -/
theorem addValue_eq_toNat (vb vc : Word) : addValue vb vc = (vb + vc).toNat := (BitVec.toNat_add vb vc).symm

/-- R151: the product reduced modulo 32768 is the product of Words. -/
theorem multValue_eq_toNat (vb vc : Word) : multValue vb vc = (vb * vc).toNat := (BitVec.toNat_mul vb vc).symm

/-- R152: with a divisor that is not zero `mod` is the remainder of Words. -/
theorem modValue_of_ne_zero {vb vc : Word} (h : vc.toNat ≠ 0) : modValue vb vc = .ok (vb % vc).toNat := by
  have hvc : vc ≠ 0 := fun hz => h (congrArg BitVec.toNat hz)
  rw [modValue, if_neg hvc, BitVec.toNat_umod]

/-- R152: a zero divisor raises `ArithmeticError`, whatever the dividend. -/
theorem modValue_of_zero {vb vc : Word} (h : vc.toNat = 0) :
    modValue vb vc = .error { kind := .arithmeticError, info := BitVec.ofNat 21 0 } :=
  if_pos (BitVec.eq_of_toNat_eq h)

/-- R152: the remainder of Words lies below a divisor that is not zero and differs from the dividend by a multiple of
it. -/
theorem word_mod_lt_and_quotient (vb : Word) {vc : Word} (h : vc.toNat ≠ 0) :
    (vb % vc).toNat < vc.toNat ∧ ∃ q : Nat, vb.toNat = q * vc.toNat + (vb % vc).toNat := by
  rw [BitVec.toNat_umod]
  exact ⟨Nat.mod_lt _ (Nat.pos_of_ne_zero h), _, (Nat.div_add_mod' _ _).symm⟩

/-- R155: the Word with the value of the complement is the complement of the Word. -/
theorem ofNat_notValue (vb : Word) : BitVec.ofNat 15 (notValue vb) = ~~~vb :=
  (BitVec.ofNat_toNat 15 (~~~vb)).trans (~~~vb).setWidth_eq

end Machine

open Sys2Proof.Machine

/-- Settles O22: `add` is the binary shape whose result is the sum of Words. -/
theorem addWritesTheSumModulo32768 : Obligations.AddWritesTheSumModulo32768 :=
  binaryLaw_of_binaryOp (fun _ _ _ => rfl) exec_add fun vb vc _ =>
    ⟨vb + vc, congrArg _ (addValue_eq_toNat vb vc), BitVec.toNat_add vb vc⟩

/-- Settles O23: `mult` is the binary shape whose result is the product of Words. -/
theorem multWritesTheProductModulo32768 : Obligations.MultWritesTheProductModulo32768 :=
  binaryLaw_of_binaryOp (fun _ _ _ => rfl) exec_mult fun vb vc _ =>
    ⟨vb * vc, congrArg _ (multValue_eq_toNat vb vc), BitVec.toNat_mul vb vc⟩

/-- Settles O24: `mod` is the binary shape whose result is the remainder of Words, defined for divisors that are not
zero; behind resolved sources a zero divisor raises in the operation, before the destination is looked at. -/
theorem modWritesTheRemainder : Obligations.ModWritesTheRemainder := by
  refine ⟨binaryLaw_of_binaryOp (fun _ _ _ => rfl) exec_mod fun vb vc h => ?remainder,
    fun s a0 hs a b c vb vc hb hc h => ?zeroDivisor⟩
  case remainder => exact ⟨vb % vc, modValue_of_ne_zero h, word_mod_lt_and_quotient vb h⟩
  case zeroDivisor =>
    rw [exec_mod, binaryOp_raises_operation hs (rdOp_of_value hb) (rdOp_of_value hc) (modValue_of_zero h)]
    exact raises_latch _ _ _ rfl

/-- Settles O25: `and` is the binary shape whose result is the bitwise and of Words. -/
theorem andIsBitwise : Obligations.AndIsBitwise :=
  binaryLaw_of_binaryOp (fun _ _ _ => rfl) exec_and fun vb vc _ =>
    ⟨vb &&& vc, rfl, fun _ _ => BitVec.getLsbD_and⟩

/-- Settles O26: `or` is the binary shape whose result is the bitwise or of Words. -/
theorem orIsBitwise : Obligations.OrIsBitwise :=
  binaryLaw_of_binaryOp (fun _ _ _ => rfl) exec_or fun vb vc _ =>
    ⟨vb ||| vc, rfl, fun _ _ => BitVec.getLsbD_or⟩

/-- Settles O27: `not` is the unary shape whose result is the complement of a Word. -/
theorem notIsTheComplement : Obligations.NotIsTheComplement := by
  refine unaryLaw_of_unaryOp (fun _ _ => rfl) exec_not (fun vb => word_lt (~~~vb)) fun vb => ?_
  rw [ofNat_notValue]
  refine ⟨BitVec.toNat_not, fun i hi => ?_⟩
  rw [BitVec.getLsbD_not, decide_eq_true hi, Bool.true_and]

end Sys2Proof

/-! # Proofs: wmem -/

namespace Sys2Proof

namespace Machine

section wmem

variable {s : State} {a0 : Cell} {a b : Operand} {addr v : Word} {r : Raise}

/-- R171: with both sources resolved `wmem` commits the store of the second one's Word at the first one's address. -/
theorem exec_wmem_commits (hs : Running s a0) (ha : rdOp s a = .ok addr) (hb : rdOp s b = .ok v) :
    exec (.wmem a b) s = .next (commit s (a0 + 3) { mem := some (addr, v.setWidth 16) }) := by
  rw [exec_wmem, ha, hb, ← nextAddr_two]
  exact perform_commits hs.1 hs.2 rfl

/-- R66, R97: `wmem` latches what the reading of its address operand raises, whatever its second operand. -/
theorem exec_wmem_raises_address (hs : Running s a0) (ha : rdOp s a = .error r) (b : Operand) :
    exec (.wmem a b) s = .next (latch s a0 r) := by
  rw [exec_wmem, ha]
  exact perform_raises hs.1 hs.2 rfl

/-- R66, R97: behind a resolved address `wmem` latches what the reading of its value operand raises. -/
theorem exec_wmem_raises_value (hs : Running s a0) (ha : rdOp s a = .ok addr) (hb : rdOp s b = .error r) :
    exec (.wmem a b) s = .next (latch s a0 r) := by
  rw [exec_wmem, ha, hb]
  exact perform_raises hs.1 hs.2 rfl

end wmem

/-- R42, R95: a committed store of a Word is what its cell then reads as. -/
theorem commit_store_read_self {s : State} (hm : s.mem.wf = true) (n : Cell) (addr v : Word) :
    ((commit s n { mem := some (addr, v.setWidth 16) }).mem.read addr.toNat).toNat = v.toNat := by
  rw [commit_mem, applyMem_some, read_write_self hm, word_setWidth_toNat]

/-- R42, R95: a committed store leaves every other cell as it was. -/
theorem commit_store_read_other {s : State} (hm : s.mem.wf = true) (n : Cell) {addr : Word} (v : Cell) {k : Nat}
    (hk : k ≠ addr.toNat) : (commit s n { mem := some (addr, v) }).mem.read k = s.mem.read k :=
  read_write_other hm v hk

end Machine

open Sys2Proof.Machine

/-- Settles O29: resolved sources commit a store, which its cell reads back as a Word while every other cell keeps its
value; an invalid source is latched as `OutOfRange`, the address before the value. -/
theorem wmemStoresACell : Obligations.WmemStoresACell := by
  refine ⟨fun _ _ => rfl, fun s a0 hs =>
    ⟨fun a b addr v hm ha hb => ?stores, fun w b => ?invalidAddress, fun a addr w ha => ?invalidValue⟩⟩
  case stores =>
    have hself := commit_store_read_self hm (a0 + 3) addr v
    exact ⟨_, exec_wmem_commits hs (rdOp_of_value ha) (rdOp_of_value hb), hself, hself.trans_lt (word_lt v),
      fun _ hk => commit_store_read_other hm _ _ hk, rfl, hs.1, fun _ => rfl, rfl, rfl, List.append_nil _⟩
  case invalidAddress =>
    rw [exec_wmem_raises_address hs (rdOp_invalid s w)]
    exact raises_latch _ _ _ (info_toNat_of_cell w)
  case invalidValue =>
    rw [exec_wmem_raises_value hs (rdOp_of_value ha) (rdOp_invalid s w)]
    exact raises_latch _ _ _ (info_toNat_of_cell w)

end Sys2Proof

/-! # Proofs: ret -/

namespace Sys2Proof

namespace Machine

open Sys2Proof.Claims

/-- R181: on an empty stack `ret` is `halt`. -/
theorem exec_ret_empty {s : State} (h : s.stack = []) : exec .ret s = exec .halt s := by
  rw [exec_ret_nil h, exec_halt]

/-- R181: `ret` drops the top cell and takes it as the new `pc`, unchecked, and the step is counted. -/
theorem exec_ret_pops {s : State} {a0 c : Cell} {rest : List Cell} (hs : Running s a0) (h : s.stack = c :: rest) :
    exec .ret s = .next { s with stack := rest, pc := .running c, steps := s.steps + 1 } := by
  rw [exec_ret_cons h, perform_commits hs.1 hs.2 rfl]
  simp [commit, h]

/-- R91, R97: a step at or above the end of memory raises `FetchOutOfBounds` with its address. -/
theorem step_of_top_le_raises {s : State} {a0 : Cell} (hs : Running s a0) (ha : memWords ≤ a0.toNat) :
    Raises (step s) .fetchOutOfBounds a0.toNat := by
  rw [step_of_top_le hs ha]
  exact raises_latch _ _ _ (info_toNat_of_cell a0)

end Machine

open Sys2Proof.Machine

/-- Settles O31: with a top cell, the state `ret` answers, whose next fetch raises when that cell is 32768; on an empty
stack, the state `halt` answers. -/
theorem retPopsOrHalts : Obligations.RetPopsOrHalts := by
  refine ⟨rfl, fun s a0 hs => ⟨fun c rest hstack => ?pops, fun hempty => ?halts⟩⟩
  case pops =>
    refine ⟨_, exec_ret_pops hs hstack, rfl, rfl, hs.1, fun _ => rfl, fun _ => rfl, rfl, rfl, fun htop => ?_⟩
    rw [← htop]
    exact step_of_top_le_raises ⟨hs.1, rfl⟩ htop.ge
  case halts =>
    have hret := exec_ret_empty hempty
    exact ⟨hret, _, hret.trans (exec_halt_running hs), rfl, hs.1, hempty, rfl, fun _ => rfl, fun _ => rfl, rfl, rfl⟩

end Sys2Proof

/-! # Proofs: decode and encode -/

namespace Sys2Proof

section formats

variable {a b c : Operand}

/-- R61: format F1 reads a well-formed operand back from its word. -/
theorem takeOne_toCell (mk : Operand → Instr) (rest : List Cell) (ha : a.WellFormed = true) :
    takeOne mk (a.toCell :: rest) = .ok (mk a, rest) := by
  rw [takeOne, ofCell_toCell ha]

/-- R61: format F2 reads well-formed operands back from their words. -/
theorem takeTwo_toCell (mk : Operand → Operand → Instr) (rest : List Cell)
    (h : (a.WellFormed && b.WellFormed) = true) :
    takeTwo mk (a.toCell :: b.toCell :: rest) = .ok (mk a b, rest) := by
  obtain ⟨ha, hb⟩ := Machine.and_wf h
  rw [takeTwo, ofCell_toCell ha, ofCell_toCell hb]

/-- R61: format F3 reads well-formed operands back from their words. -/
theorem takeThree_toCell (mk : Operand → Operand → Operand → Instr) (rest : List Cell)
    (h : (a.WellFormed && b.WellFormed && c.WellFormed) = true) :
    takeThree mk (a.toCell :: b.toCell :: c.toCell :: rest) = .ok (mk a b c, rest) := by
  obtain ⟨ha, hb, hc⟩ := Machine.and_and_wf h
  rw [takeThree, ofCell_toCell ha, ofCell_toCell hb, ofCell_toCell hc]

end formats

/-- Settles O2: an instruction's opcode word selects its row of the map, and the row's format reads the operands back. -/
theorem decodeInvertsEncode : Obligations.DecodeInvertsEncode := by
  intro i rest h
  cases i with
  | halt => rfl
  | set a b => exact takeTwo_toCell .set rest h
  | push a => exact takeOne_toCell .push rest h
  | pop a => exact takeOne_toCell .pop rest h
  | eq a b c => exact takeThree_toCell .eq rest h
  | gt a b c => exact takeThree_toCell .gt rest h
  | jmp a => exact takeOne_toCell .jmp rest h
  | jt a b => exact takeTwo_toCell .jt rest h
  | jf a b => exact takeTwo_toCell .jf rest h
  | add a b c => exact takeThree_toCell .add rest h
  | mult a b c => exact takeThree_toCell .mult rest h
  | mod a b c => exact takeThree_toCell .mod rest h
  | and a b c => exact takeThree_toCell .and rest h
  | or a b c => exact takeThree_toCell .or rest h
  | not a b => exact takeTwo_toCell .not rest h
  | rmem a b => exact takeTwo_toCell .rmem rest h
  | wmem a b => exact takeTwo_toCell .wmem rest h
  | call a => exact takeOne_toCell .call rest h
  | ret => rfl
  | out a => exact takeOne_toCell .out rest h
  | input a => exact takeOne_toCell .input rest h
  | noop => rfl

/-- What a row of the opcode map says of `read`, the reading of the words behind its opcode word: what is read is well
formed and is written as these words, `n` words are enough, and with fewer the first missing one is reported (R61,
R92). -/
structure RowReads (op : Cell) (n : Nat) (read : List Cell → Except DecodeError (Instr × List Cell)) : Prop where
  inverts : ∀ {ws rest i}, read ws = .ok (i, rest) → i.WellFormed = true ∧ encode i ++ rest = op :: ws
  enough : ∀ {ws}, n ≤ ws.length → ∃ x, read ws = .ok x
  short : ∀ {ws}, ws.length < n → read ws = .error (.missingOperand (ws.length + 1))

section rows

variable {op : Cell}

theorem rowReads_none {i : Instr} (hencode : encode i = [op]) (hwf : i.WellFormed = true) :
    RowReads op 0 fun ws => .ok (i, ws) where
  inverts h := by
    cases h
    exact ⟨hwf, by rw [hencode]; rfl⟩
  enough _ := ⟨_, rfl⟩
  short h := absurd h (Nat.not_lt_zero _)

theorem rowReads_one {mk : Operand → Instr} (hencode : ∀ a, encode (mk a) = [op, a.toCell])
    (hwf : ∀ a, (mk a).WellFormed = a.WellFormed) : RowReads op 1 (takeOne mk) where
  inverts {ws rest i} h := by
    match ws, h with
    | [], h => cases h
    | a :: _, h =>
      cases h
      simp [hencode, hwf]
  enough {ws} h := by
    match ws, h with
    | _ :: _, _ => exact ⟨_, rfl⟩
  short {ws} h := by
    match ws, h with
    | [], _ => rfl

theorem rowReads_two {mk : Operand → Operand → Instr} (hencode : ∀ a b, encode (mk a b) = [op, a.toCell, b.toCell])
    (hwf : ∀ a b, (mk a b).WellFormed = (a.WellFormed && b.WellFormed)) : RowReads op 2 (takeTwo mk) where
  inverts {ws rest i} h := by
    match ws, h with
    | [], h | [_], h => cases h
    | a :: b :: _, h =>
      cases h
      simp [hencode, hwf]
  enough {ws} h := by
    match ws, h with
    | _ :: _ :: _, _ => exact ⟨_, rfl⟩
  short {ws} h := by
    match ws, h with
    | [], _ | [_], _ => rfl

theorem rowReads_three {mk : Operand → Operand → Operand → Instr}
    (hencode : ∀ a b c, encode (mk a b c) = [op, a.toCell, b.toCell, c.toCell])
    (hwf : ∀ a b c, (mk a b c).WellFormed = (a.WellFormed && b.WellFormed && c.WellFormed)) :
    RowReads op 3 (takeThree mk) where
  inverts {ws rest i} h := by
    match ws, h with
    | [], h | [_], h | [_, _], h => cases h
    | a :: b :: c :: _, h =>
      cases h
      simp [hencode, hwf]
  enough {ws} h := by
    match ws, h with
    | _ :: _ :: _ :: _, _ => exact ⟨_, rfl⟩
  short {ws} h := by
    match ws, h with
    | [], _ | [_], _ | [_, _], _ => rfl

end rows

open Sys2Proof.Claims

/-- R70: the rows of the opcode map, each with its entry of the arity column. -/
theorem decode_row : ∀ (op : Nat) (n : Nat), arityColumn[op]? = some n →
    RowReads (BitVec.ofNat 16 op) n fun ws => decode (BitVec.ofNat 16 op :: ws)
  | 0, _, rfl => rowReads_none (i := .halt) rfl rfl
  | 1, _, rfl => rowReads_two (mk := .set) (fun _ _ => rfl) fun _ _ => rfl
  | 2, _, rfl => rowReads_one (mk := .push) (fun _ => rfl) fun _ => rfl
  | 3, _, rfl => rowReads_one (mk := .pop) (fun _ => rfl) fun _ => rfl
  | 4, _, rfl => rowReads_three (mk := .eq) (fun _ _ _ => rfl) fun _ _ _ => rfl
  | 5, _, rfl => rowReads_three (mk := .gt) (fun _ _ _ => rfl) fun _ _ _ => rfl
  | 6, _, rfl => rowReads_one (mk := .jmp) (fun _ => rfl) fun _ => rfl
  | 7, _, rfl => rowReads_two (mk := .jt) (fun _ _ => rfl) fun _ _ => rfl
  | 8, _, rfl => rowReads_two (mk := .jf) (fun _ _ => rfl) fun _ _ => rfl
  | 9, _, rfl => rowReads_three (mk := .add) (fun _ _ _ => rfl) fun _ _ _ => rfl
  | 10, _, rfl => rowReads_three (mk := .mult) (fun _ _ _ => rfl) fun _ _ _ => rfl
  | 11, _, rfl => rowReads_three (mk := .mod) (fun _ _ _ => rfl) fun _ _ _ => rfl
  | 12, _, rfl => rowReads_three (mk := .and) (fun _ _ _ => rfl) fun _ _ _ => rfl
  | 13, _, rfl => rowReads_three (mk := .or) (fun _ _ _ => rfl) fun _ _ _ => rfl
  | 14, _, rfl => rowReads_two (mk := .not) (fun _ _ => rfl) fun _ _ => rfl
  | 15, _, rfl => rowReads_two (mk := .rmem) (fun _ _ => rfl) fun _ _ => rfl
  | 16, _, rfl => rowReads_two (mk := .wmem) (fun _ _ => rfl) fun _ _ => rfl
  | 17, _, rfl => rowReads_one (mk := .call) (fun _ => rfl) fun _ => rfl
  | 18, _, rfl => rowReads_none (i := .ret) rfl rfl
  | 19, _, rfl => rowReads_one (mk := .out) (fun _ => rfl) fun _ => rfl
  | 20, _, rfl => rowReads_one (mk := .input) (fun _ => rfl) fun _ => rfl
  | 21, _, rfl => rowReads_none (i := .noop) rfl rfl
  | _ + 22, _, h => nomatch h

/-- R70: an opcode word with an entry in the arity column reads as its row says. -/
theorem decode_rowReads {op : Cell} {n : Nat} (h : arityColumn[op.toNat]? = some n) :
    RowReads op n fun ws => decode (op :: ws) := by
  have hrow := decode_row op.toNat n h
  rwa [BitVec.ofNat_toNat, BitVec.setWidth_eq] at hrow

/-- Settles O3: an opcode word that decodes is at most 21, so it has a row, and what the row reads it writes back. -/
theorem encodeInvertsDecode : Obligations.EncodeInvertsDecode := by
  intro ws rest i h
  match ws, h with
  | [], h => cases h
  | op :: ws, h =>
    have hop : op.toNat < arityColumn.length := by
      by_contra hbig
      rw [decode_illegal ws (Nat.le_of_not_lt hbig)] at h
      cases h
    exact (decode_rowReads (List.getElem?_eq_getElem hop)).inverts h

end Sys2Proof

/-! # Proofs: fetch and step -/

namespace Sys2Proof

/-- R61: an instruction is one opcode word and its operand words. -/
theorem encode_length (i : Instr) : (encode i).length = 1 + i.arity := by cases i <;> rfl

/-- R70: no instruction has more than three operands. -/
theorem arity_le_three (i : Instr) : i.arity ≤ 3 := by cases i <;> simp [Instr.arity, Instr.operands]

open Sys2Proof.Claims

/-- R70: every opcode number has an entry in the arity column. -/
theorem arityColumn_exists {op : Nat} (h : op ≤ 21) : ∃ n, arityColumn[op]? = some n :=
  ⟨_, List.getElem?_eq_getElem (Nat.lt_succ_of_le h)⟩

/-- R70: no entry of the arity column is above three. -/
theorem arityColumn_le_three {op n : Nat} (h : arityColumn[op]? = some n) : n ≤ 3 :=
  (by decide : ∀ k ∈ arityColumn, k ≤ 3) n (List.mem_of_getElem? h)

namespace Machine

/-- R60, R92: an encoding that stands in memory is what the fetch window begins with. -/
theorem encode_prefix_window {m : Memory} {a : Nat} {i : Instr}
    (h : ∀ k : Nat, k < (encode i).length → a + k < 32768 ∧ (encode i)[k]? = some (m.read (a + k))) :
    encode i <+: m.window 4 a := by
  refine List.prefix_iff_getElem?.2 fun k hk => ?_
  obtain ⟨htop, hread⟩ := h k hk
  have hlen := encode_length i
  have harity := arity_le_three i
  rw [window_getElem?, if_pos ⟨by omega, htop⟩, ← hread, List.getElem?_eq_getElem hk]

section fetch

variable {s : State} {a0 : Cell}

/-- R91, R92: a fetched instruction is well formed, and its encoding is what the fetch window begins with. -/
theorem fetch_encoded {i : Instr} (h : fetch s a0 = .ok i) :
    i.WellFormed = true ∧ encode i <+: s.mem.window 4 a0.toNat := by
  obtain ⟨rest, hd⟩ := fetch_ok_iff.1 h
  obtain ⟨hwf, hcode⟩ := encodeInvertsDecode _ _ _ hd
  exact ⟨hwf, rest, hcode⟩

/-- R92, R93: a fetched instruction lies in memory, so the address behind it is at most the end of memory. -/
theorem fetch_fits {i : Instr} (h : fetch s a0 = .ok i) : a0.toNat + 1 + i.arity ≤ 32768 := by
  have hlen := (fetch_encoded h).2.length_le
  rw [window_length, encode_length, memWords_eq] at hlen
  omega

/-- R91: the first word of a fetched instruction's encoding is the cell under the address. -/
theorem fetch_opcode {i : Instr} {op : Cell} (h : fetch s a0 = .ok i) (hop : (encode i)[0]? = some op) :
    s.mem.read a0.toNat = op := by
  have hfits := fetch_fits h
  have hlen : 0 < (encode i).length := by rw [encode_length]; omega
  have hfirst := List.prefix_iff_getElem?.1 (fetch_encoded h).2 0 hlen
  rw [window_getElem?, if_pos ⟨by omega, by rw [memWords_eq]; omega⟩, ← List.getElem?_eq_getElem hlen, hop] at hfirst
  exact Option.some.inj hfirst

/-- R92: the fetch of an instruction whose operand words reach the end of memory raises `FetchOutOfBounds` of address
32768. -/
theorem fetch_operand_past_top {n : Nat} (ha : a0.toNat < 32768)
    (hn : arityColumn[(s.mem.read a0.toNat).toNat]? = some n) (htop : 32768 ≤ a0.toNat + n) :
    fetch s a0 = .error { kind := .fetchOutOfBounds, info := 32768 } := by
  have hn3 := arityColumn_le_three hn
  have hlen : (s.mem.window 3 (a0.toNat + 1)).length = 32768 - (a0.toNat + 1) := by
    rw [window_length, memWords_eq]
    omega
  have hd := (decode_rowReads hn).short (ws := s.mem.window 3 (a0.toNat + 1)) (by rw [hlen]; omega)
  rw [← window_succ _ _ ha, hlen] at hd
  have haddr : a0.toNat + (32768 - (a0.toNat + 1) + 1) = 32768 := by omega
  simp only [fetch, hd, raise, haddr]
  rfl

/-- Everything a fetch can raise (R91, R92): an opcode word at or above the end of memory, one above 21, or an operand
word at the end of memory. -/
theorem fetch_error {r : Raise} (h : fetch s a0 = .error r) :
    (32768 ≤ a0.toNat ∧ r = { kind := .fetchOutOfBounds, info := BitVec.ofNat 21 a0.toNat }) ∨
    (21 < (s.mem.read a0.toNat).toNat ∧
      r = { kind := .illegalInstruction, info := BitVec.ofNat 21 (s.mem.read a0.toNat).toNat }) ∨
    r = { kind := .fetchOutOfBounds, info := 32768 } := by
  rcases Nat.lt_or_ge a0.toNat 32768 with ha | ha
  · rcases Nat.lt_or_ge 21 (s.mem.read a0.toNat).toNat with hop | hop
    · rw [fetch_illegal ha hop] at h
      cases h
      exact .inr (.inl ⟨hop, rfl⟩)
    · obtain ⟨n, hn⟩ := arityColumn_exists hop
      rcases Nat.lt_or_ge (a0.toNat + n) 32768 with hfit | htop
      · have hn3 := arityColumn_le_three hn
        obtain ⟨⟨i, rest⟩, hd⟩ :=
          (decode_rowReads hn).enough (ws := s.mem.window 3 (a0.toNat + 1)) (by rw [window_length, memWords_eq]; omega)
        rw [← window_succ _ _ ha] at hd
        rw [fetch_ok_iff.2 ⟨rest, hd⟩] at h
        cases h
      · rw [fetch_operand_past_top ha hn htop] at h
        cases h
        exact .inr (.inr rfl)
  · rw [fetch_of_top_le s ha] at h
    cases h
    exact .inl ⟨ha, rfl⟩

end fetch

/-- R90 (1): the faulted machine refuses the step and reports its record. -/
theorem step_of_faulted {s : State} {r : FaultRecord} (hf : s.fault = some r) : step s = .fault (.latched r) := by
  have he : entry s = .error (.latched r) := entry_error_iff.2 (.inl ⟨r, hf, rfl⟩)
  simp only [step, he]

end Machine

open Sys2Proof.Machine

/-- Settles O7: the fetch window begins with the encoding, so it decodes to the instruction. -/
theorem stepRunsTheEncodedInstruction : Obligations.StepRunsTheEncodedInstruction := by
  intro s a0 i hs hwf h
  obtain ⟨rest, hwindow⟩ := encode_prefix_window h
  refine step_of_fetch hs (fetch_ok_iff.2 ⟨rest, ?_⟩)
  rw [← hwindow]
  exact decodeInvertsEncode i rest hwf

/-- Settles O8: the step latches what the fetch of an opcode word above 21 raises. -/
theorem illegalOpcodeLatchesAddressAndValue : Obligations.IllegalOpcodeLatchesAddressAndValue := by
  intro s a0 hs ha hop
  rw [step_illegal hs ha hop, BitVec.ofNat_toNat]
  rfl

/-- Settles O9: the step latches what the fetch raises, of the opcode word and of an operand word. -/
theorem fetchPastTheTopFaults : Obligations.FetchPastTheTopFaults :=
  ⟨fun _ hs => step_of_top_le hs (Nat.le_refl _),
    fun _ _ _ hs ha hn htop => step_of_fetch_error hs (fetch_operand_past_top ha hn htop)⟩

/-- Settles O6: what decodes is what is fetched. -/
theorem stepRunsTheDecodedInstruction : Obligations.StepRunsTheDecodedInstruction :=
  fun _ _ _ rest hs hd => step_of_fetch hs (fetch_ok_iff.2 ⟨rest, hd⟩)

/-- Settles O10: the entry test refuses both, and a refused entry changes nothing. -/
theorem faultedOrHaltedMachineDoesNotStep : Obligations.FaultedOrHaltedMachineDoesNotStep :=
  ⟨fun _ _ hf => ⟨step_of_faulted hf, afterStep_of_fault (step_of_faulted hf)⟩,
    fun _ hf hp => ⟨step_of_halted hf hp, afterStep_of_fault (step_of_halted hf hp)⟩⟩

end Sys2Proof

/-! # Proofs: what every step keeps -/

namespace Sys2Proof

namespace Machine

section actionState

variable (i : Instr) (s : State)

/-- R192: the state an action is taken in differs from the state before the step in the line buffer and the source. -/
theorem actionState_eq : actionState i s =
    { s with inbuf := (actionState i s).inbuf, source := (actionState i s).source,
             pulls := (actionState i s).pulls } := by
  unfold actionState
  split
  · unfold refill
    split <;> rfl
  · rfl

@[simp] theorem actionState_regs : (actionState i s).regs = s.regs := by rw [actionState_eq]
@[simp] theorem actionState_pc : (actionState i s).pc = s.pc := by rw [actionState_eq]
@[simp] theorem actionState_stack : (actionState i s).stack = s.stack := by rw [actionState_eq]
@[simp] theorem actionState_mem : (actionState i s).mem = s.mem := by rw [actionState_eq]
@[simp] theorem actionState_fault : (actionState i s).fault = s.fault := by rw [actionState_eq]
@[simp] theorem actionState_steps : (actionState i s).steps = s.steps := by rw [actionState_eq]
@[simp] theorem actionState_out : (actionState i s).out = s.out := by rw [actionState_eq]
@[simp] theorem actionState_cfg : (actionState i s).cfg = s.cfg := by rw [actionState_eq]

variable {i s}

/-- R192: only `in` refills the line buffer. -/
theorem actionState_of_ne_input (h : ∀ a, i ≠ .input a) : actionState i s = s := by
  unfold actionState
  split
  · next a => exact absurd rfl (h a)
  · rfl

/-- R193: a line buffer that holds a character is not refilled. -/
theorem actionState_of_inbuf (h : s.inbuf ≠ []) : actionState i s = s := by
  unfold actionState
  split
  · exact refill_of_ne_nil h
  · rfl

end actionState

/-- R93: where the instruction lies in memory the fall-through address is the exact sum. -/
theorem nextAddr_toNat {a0 : Cell} {n : Nat} (h : a0.toNat + 1 + n ≤ 32768) :
    (nextAddr a0 n).toNat = a0.toNat + 1 + n := by
  have hone : (1 : Cell).toNat = 1 := rfl
  simp only [nextAddr, BitVec.toNat_add, BitVec.toNat_ofNat, hone]
  omega

section effects

variable {i : Instr} {s : State} {a0 next : Cell} {e : Effects}

/-- R95: a committed store keeps the canonical form of memory. -/
theorem applyMem_wf {m : Memory} (h : m.wf = true) : (x : Option (Word × Cell)) → (applyMem m x).wf = true
  | none => h
  | some (a, _) => write_wf h (word_lt a)

/-- R14: a committed `pc` is in range when the fall-through address and the stack cells are. -/
theorem effectsOf_pcLegal (he : EffectsOf i s next e) (hnext : next.toNat ≤ 32768)
    (hcells : ∀ c ∈ s.stack, c.toNat ≤ memWords) : pcLegal (e.pc.getD (.running next)) = true := by
  rcases he.pc with h | ⟨h, _⟩ | ⟨a, h, hword | hcell⟩
  all_goals rw [h]
  · exact decide_eq_true hnext
  · rfl
  · exact decide_eq_true hword.le
  · exact decide_eq_true (hcells a hcell)

/-- R18: a committed stack operation keeps the range of the stack cells. -/
theorem effectsOf_cells (he : EffectsOf i s next e) (hnext : next.toNat ≤ 32768)
    (hcells : ∀ c ∈ s.stack, c.toNat ≤ memWords) : ∀ c ∈ applyStack s.stack e.stack, c.toNat ≤ memWords := by
  rcases he.stack with h | ⟨_, h, _⟩ | ⟨_, _, v, h, hv⟩
  all_goals rw [h]
  · exact hcells
  · exact fun c hc => hcells c (List.mem_of_mem_tail hc)
  · have hpushed : v.toNat ≤ memWords := hv.elim Nat.le_of_lt fun heq => heq ▸ hnext
    exact List.forall_mem_cons.2 ⟨hpushed, hcells⟩

/-- R19: a stack below its depth has room for one cell. -/
theorem depthLegal_succ {d : Option Nat} {n : Nat} (h : depthLegal d n = true) (hroom : d ≠ some n) :
    depthLegal d (n + 1) = true := by
  cases d with
  | none => rfl
  | some d =>
    have hle : n ≤ d := of_decide_eq_true h
    have hne : d ≠ n := fun heq => hroom (congrArg some heq)
    exact decide_eq_true (by omega)

/-- R19: a stack with fewer cells fits too. -/
theorem depthLegal_of_le {d : Option Nat} {m n : Nat} (h : depthLegal d n = true) (hmn : m ≤ n) :
    depthLegal d m = true := by
  cases d with
  | none => rfl
  | some d => exact decide_eq_true (hmn.trans (of_decide_eq_true h))

/-- R19: a committed stack operation keeps the stack within its depth. -/
theorem effectsOf_depth (he : EffectsOf i s next e) (hdepth : depthLegal s.cfg.stackDepth s.stack.length = true) :
    depthLegal s.cfg.stackDepth (applyStack s.stack e.stack).length = true := by
  rcases he.stack with h | ⟨_, h, _⟩ | ⟨_, hroom, v, h, _⟩
  all_goals rw [h]
  · exact hdepth
  · exact depthLegal_of_le hdepth (by rw [applyStack_drop, List.length_tail]; omega)
  · exact depthLegal_succ hdepth hroom

/-- R29, R95: a commit keeps the invariant when the fall-through address is in range. -/
theorem inv_commit (hs : s.Inv) (hf : s.fault = none) (he : EffectsOf i s next e) (hnext : next.toNat ≤ 32768) :
    (commit (actionState i s) next e).Inv := by
  obtain ⟨hmem, _, hcells, hdepth, _⟩ := hs
  simp only [State.Inv, commit_mem, commit_pc, commit_stack, commit_cfg, commit_fault, actionState_mem,
    actionState_stack, actionState_cfg, actionState_fault, hf]
  exact ⟨applyMem_wf hmem _, effectsOf_pcLegal he hnext hcells, effectsOf_cells he hnext hcells,
    effectsOf_depth he hdepth, rfl⟩

/-- R29, R97: latching a legal fault at the address of the failing instruction keeps the invariant. -/
theorem inv_latch {r : Raise} (hs : s.Inv) (hp : s.pc = .running a0) (hinfo : infoLegal r.kind r.info.toNat = true) :
    (latch (actionState i s) a0 r).Inv := by
  obtain ⟨hmem, hpc, hcells, hdepth, _⟩ := hs
  simp only [State.Inv, latch_mem, latch_pc, latch_stack, latch_cfg, latch_fault, actionState_mem, actionState_pc,
    actionState_stack, actionState_cfg]
  exact ⟨hmem, hpc, hcells, hdepth, by simp [faultLegal, hp, hinfo]⟩

end effects

/-- R201: what a fetch from a legal `pc` raises records a legal value. -/
theorem fetch_error_info {s : State} {a0 : Cell} {r : Raise} (h : fetch s a0 = .error r) (ha : a0.toNat ≤ 32768) :
    infoLegal r.kind r.info.toNat = true := by
  rcases fetch_error h with ⟨htop, rfl⟩ | ⟨hop, rfl⟩ | rfl
  · rw [Nat.le_antisymm ha htop]
    rfl
  · have hcell := (s.mem.read a0.toNat).isLt
    rw [info_toNat_of_cell]
    simp only [infoLegal, Bool.and_eq_true, decide_eq_true_eq]
    omega
  · rfl

end Machine

open Sys2Proof.Machine

/-- Settles O40: memory and stack are empty, `pc` is 0 and nothing is latched. -/
theorem invariantHoldsAtReset : Obligations.InvariantHoldsAtReset :=
  ⟨wf_nil, rfl, fun _ hc => absurd hc List.not_mem_nil, rfl, rfl⟩

/-- Settles O41: a step latches what the fetch raised, or runs a well-formed instruction that lies in memory, which
latches a legal fault or commits effects with a fall-through address in range. -/
theorem stepKeepsTheInvariant : Obligations.StepKeepsTheInvariant := by
  intro s t hs h
  obtain ⟨a0, ⟨hf, hp⟩, ⟨r, hr, rfl⟩ | ⟨i, hi, hexec⟩⟩ := step_next h
  · have ha : a0.toNat ≤ 32768 := by
      obtain ⟨_, hpc, _⟩ := hs
      rw [hp] at hpc
      exact of_decide_eq_true hpc
    exact inv_latch (i := .noop) hs hp (fetch_error_info hr ha)
  · obtain ⟨b0, ⟨_, hp'⟩, ⟨r, hinfo, rfl⟩ | ⟨e, he, rfl⟩⟩ := exec_next hexec
    · exact inv_latch hs hp' (hinfo (fetch_encoded hi).1)
    · obtain rfl : a0 = b0 := Pc.running.inj (hp.symm.trans hp')
      have hfits := fetch_fits hi
      exact inv_commit hs hf he (by rw [nextAddr_toNat hfits]; exact hfits)

end Sys2Proof

/-! # Proofs: frames and whole-machine safety -/

namespace Sys2Proof

namespace Machine

/-- R190, R191: the events of one output character. -/
theorem emitted_some (c : Word) : emitted (some c) = .emit c :: (if c.toNat = 10 then [.flush] else []) := by
  have hnewline : c = Config.newline ↔ c.toNat = 10 := BitVec.toNat_inj.symm
  simp only [emitted, hnewline]
  split <;> rfl

section exec

variable {i : Instr} {s t : State}

/-- R13, R95: a committed register write leaves every register but the destination as it was. -/
theorem effectsOf_regs {next : Cell} {e : Effects} {q : RegIx} (he : EffectsOf i s next e)
    (hq : destination i ≠ some q) : (applyReg s.regs e.reg)[q] = s.regs[q] := by
  match hreg : e.reg with
  | none => rfl
  | some (r, v) =>
    have hne : q ≠ r := fun heq => hq (heq ▸ he.reg r v hreg)
    exact regs_set_other _ v hne

/-- R47, R95: what an instruction can do to memory: nothing, or the store of a Word by `wmem` at the address its first
operand resolves to. -/
theorem exec_mem (h : exec i s = .next t) :
    t.mem = s.mem ∨ ∃ a b addr v, i = .wmem a b ∧ rdOp s a = .ok addr ∧ v.toNat < 32768 ∧
      t.mem = s.mem.write addr.toNat v := by
  obtain ⟨a0, _, ⟨r, _, rfl⟩ | ⟨e, he, rfl⟩⟩ := exec_next h
  · exact .inl (actionState_mem i s)
  · rw [commit_mem, actionState_mem]
    match hmem : e.mem with
    | none => exact .inl rfl
    | some (addr, v) =>
      obtain ⟨hv, a, b, hi, ha⟩ := he.mem addr v hmem
      exact .inr ⟨a, b, addr, v, hi, ha, hv, rfl⟩

/-- R18, R95: what an instruction can do to the stack: nothing, the push of `push` and `call`, or the drop of `pop` and
`ret`. -/
theorem exec_stack (h : exec i s = .next t) :
    t.stack = s.stack ∨
    (((∃ a, i = .push a) ∨ ∃ a, i = .call a) ∧ ∃ c, t.stack = c :: s.stack) ∨
    ((i = .ret ∨ ∃ a, i = .pop a) ∧ ∃ c, s.stack = c :: t.stack) := by
  obtain ⟨a0, _, ⟨r, _, rfl⟩ | ⟨e, he, rfl⟩⟩ := exec_next h
  · exact .inl (actionState_stack i s)
  · rw [commit_stack, actionState_stack]
    rcases he.stack with hop | ⟨hi, hop, hne⟩ | ⟨hi, _, v, hop, _⟩
    all_goals rw [hop]
    · exact .inl rfl
    · obtain ⟨c, rest, hcons⟩ := List.exists_cons_of_ne_nil hne
      exact .inr (.inr ⟨hi, c, by rw [hcons]; rfl⟩)
    · exact .inr (.inl ⟨hi, v, rfl⟩)

/-- R22, R95: what an instruction can do to the output: nothing, or the events of one character by a committed `out`. -/
theorem exec_output (h : exec i s = .next t) :
    t.out = s.out ∨ ∃ a c, i = .out a ∧ t.fault = none ∧ t.out = s.out ++ emitted (some c) := by
  obtain ⟨a0, ⟨hf, _⟩, ⟨r, _, rfl⟩ | ⟨e, he, rfl⟩⟩ := exec_next h
  · exact .inl (actionState_out i s)
  · rw [commit_out, commit_fault, actionState_out, actionState_fault]
    match hemit : e.emit with
    | none => exact .inl (List.append_nil _)
    | some c =>
      obtain ⟨a, hi⟩ := he.emit c hemit
      exact .inr ⟨a, c, hi, hf, rfl⟩

/-- R21, R192: an instruction other than `in` leaves the line buffer and the source alone. -/
theorem exec_input_unchanged (h : exec i s = .next t) (hi : ∀ a, i ≠ .input a) :
    t.inbuf = s.inbuf ∧ t.source = s.source ∧ t.pulls = s.pulls := by
  obtain ⟨a0, _, hdid⟩ := exec_next h
  rw [ExecDid, actionState_of_ne_input hi] at hdid
  obtain ⟨r, _, rfl⟩ | ⟨e, he, rfl⟩ := hdid
  · exact ⟨rfl, rfl, rfl⟩
  · have hconsume : ¬ e.consume = true := fun hc => (he.consume hc).elim hi
    exact ⟨if_neg hconsume, rfl, rfl⟩

/-- R17, R95: an instruction that leaves the machine halted is `halt`, or `ret` on an empty stack, and has committed. -/
theorem exec_halted (h : exec i s = .next t) (ht : t.pc = .halted) :
    t.fault = none ∧ (i = .halt ∨ (i = .ret ∧ s.stack = [])) := by
  obtain ⟨a0, ⟨hf, hp⟩, ⟨r, _, rfl⟩ | ⟨e, he, rfl⟩⟩ := exec_next h
  · rw [latch_pc, actionState_pc, hp] at ht
    cases ht
  · rw [commit_pc] at ht
    rcases he.pc with hpc | ⟨hpc, hi⟩ | ⟨a, hpc, _⟩
    · rw [hpc] at ht
      cases ht
    · exact ⟨(actionState_fault i s).trans hf, hi⟩
    · rw [hpc] at ht
      cases ht

end exec

end Machine

open Sys2Proof.Machine

/-- Settles O11: a latch is taken in the state of the action, which is the state before the step but for the line that
`in` pulled; a commit leaves no fault behind. -/
theorem faultsArePrecise : Obligations.FaultsArePrecise := by
  intro i s t a0 r hs h hr
  obtain ⟨b0, ⟨hf, hp⟩, ⟨raised, _, rfl⟩ | ⟨e, _, rfl⟩⟩ := exec_next h
  · cases hr
    obtain rfl : a0 = b0 := Pc.running.inj (hs.2.symm.trans hp)
    refine ⟨rfl, congrArg (latch · a0 raised) (actionState_eq i s), fun hkept => ?_⟩
    have hsame : actionState i s = s := hkept.elim actionState_of_ne_input actionState_of_inbuf
    rw [hsame]
    exact ⟨rfl, rfl, rfl⟩
  · rw [commit_fault, actionState_fault, hf] at hr
    cases hr

/-- Settles O12: a latch keeps the counter and holds a fault, a commit counts and holds none. -/
theorem committedStepsAreCounted : Obligations.CommittedStepsAreCounted := by
  intro i s t h
  obtain ⟨a0, ⟨hf, _⟩, ⟨r, _, rfl⟩ | ⟨e, _, rfl⟩⟩ := exec_next h
  · rw [latch_fault, latch_steps, actionState_steps]
    exact ⟨fun hnone => absurd hnone (Option.some_ne_none _), fun _ => rfl⟩
  · rw [commit_fault, commit_steps, actionState_fault, actionState_steps]
    exact ⟨fun _ => rfl, fun hsome => absurd hf hsome⟩

/-- Settles O35: a latch keeps the registers, a commit writes the destination register at most. -/
theorem onlyTheDestinationRegisterChanges : Obligations.OnlyTheDestinationRegisterChanges := by
  intro i s t h q hq
  obtain ⟨a0, _, ⟨r, _, rfl⟩ | ⟨e, he, rfl⟩⟩ := exec_next h
  · rw [latch_regs, actionState_regs]
  · rw [commit_regs, actionState_regs]
    exact effectsOf_regs he hq

/-- Settles O36: the one store an instruction can make is that of `wmem`, at the address its first operand resolves
to. -/
theorem onlyTheStoredCellChanges : Obligations.OnlyTheStoredCellChanges := by
  refine ⟨fun i s t h hi => ?others, fun a b s t hm h => ?wmem⟩
  case others =>
    rcases exec_mem h with hsame | ⟨a, b, _, _, hwmem, _⟩
    · exact hsame
    · exact absurd hwmem (hi a b)
  case wmem =>
    rcases exec_mem h with hsame | ⟨_, _, stored, v, hi, ha, _, hmem⟩
    · exact ⟨fun _ _ k _ => by rw [hsame], fun _ _ => hsame⟩
    · cases hi
      refine ⟨fun addr haddr k hk => ?_, fun r hr => ?_⟩
      · obtain rfl : stored = addr := Except.ok.inj (ha.symm.trans haddr)
        rw [hmem, read_write_other hm v hk]
      · rw [ha] at hr
        cases hr

/-- Settles O37: the three things an instruction can do to the stack. -/
theorem onlyStackInstructionsChangeTheStack : Obligations.OnlyStackInstructionsChangeTheStack := by
  intro i s t h
  rcases exec_stack h with hsame | ⟨hi, hpush⟩ | ⟨hi, hdrop⟩
  · exact ⟨fun _ _ _ _ => hsame, .inl hsame⟩
  · refine ⟨fun hnpush _ hncall _ => ?_, .inr (.inl hpush)⟩
    rcases hi with ⟨a, hi⟩ | ⟨a, hi⟩
    · exact absurd hi (hnpush a)
    · exact absurd hi (hncall a)
  · refine ⟨fun _ hnpop _ hnret => ?_, .inr (.inr hdrop)⟩
    rcases hi with hi | ⟨a, hi⟩
    · exact absurd hi hnret
    · exact absurd hi (hnpop a)

/-- Settles O38: only `in` consumes and pulls, only `out` emits, and neither a latch nor a commit touches the
parameters. -/
theorem onlyInAndOutTouchTheEnvironment : Obligations.OnlyInAndOutTouchTheEnvironment := by
  intro i s t h
  refine ⟨exec_input_unchanged h, fun hi => ?output, ?parameters⟩
  case output =>
    rcases exec_output h with hsame | ⟨a, _, hout, _⟩
    · exact hsame
    · exact absurd hout (hi a)
  case parameters =>
    obtain ⟨a0, _, ⟨r, _, rfl⟩ | ⟨e, _, rfl⟩⟩ := exec_next h
    · exact actionState_cfg i s
    · exact actionState_cfg i s

/-- Settles O42: a latched step keeps a numeric `pc`, and the fetched instruction that halts is known by its opcode
word. -/
theorem onlyHaltAndEmptyRetHalt : Obligations.OnlyHaltAndEmptyRetHalt := by
  intro s t h ht
  obtain ⟨a0, hs, ⟨r, _, rfl⟩ | ⟨i, hi, hexec⟩⟩ := step_next h
  · rw [latch_pc, hs.2] at ht
    cases ht
  · obtain ⟨hf, hwhich⟩ := exec_halted hexec ht
    have hfits := fetch_fits hi
    refine ⟨⟨ht, hf⟩, a0, hs, by omega, ?_⟩
    rcases hwhich with rfl | ⟨rfl, hempty⟩
    · exact .inl (congrArg BitVec.toNat (fetch_opcode (op := 0) hi rfl))
    · exact .inr ⟨congrArg BitVec.toNat (fetch_opcode (op := 18) hi rfl), hempty⟩

/-- Settles O43: a latched step keeps memory, and the fetched instruction that stores is `wmem`, known by its opcode
word, which stores a Word at a Word. -/
theorem onlyWmemChangesMemory : Obligations.OnlyWmemChangesMemory := by
  intro s t hm h k hk
  obtain ⟨a0, hs, ⟨r, _, rfl⟩ | ⟨i, hi, hexec⟩⟩ := step_next h
  · exact absurd rfl hk
  · rcases exec_mem hexec with hsame | ⟨a, b, addr, v, rfl, _, hv, hmem⟩
    · exact absurd (by rw [hsame]) hk
    · obtain rfl : k = addr.toNat := by
        by_contra hother
        exact hk (by rw [hmem, read_write_other hm v hother])
      rw [hmem, read_write_self hm]
      exact ⟨hv, word_lt addr, a0, hs, congrArg BitVec.toNat (fetch_opcode (op := 16) hi rfl)⟩

/-- Settles O44: a latched step keeps the output, and the fetched instruction that emits is a committed `out`, known by
its opcode word. -/
theorem outputOnlyGrows : Obligations.OutputOnlyGrows := by
  intro s t h
  obtain ⟨a0, hs, ⟨r, _, rfl⟩ | ⟨i, hi, hexec⟩⟩ := step_next h
  · exact .inl rfl
  · rcases exec_output hexec with hsame | ⟨a, c, rfl, hf, hout⟩
    · exact .inl hsame
    · have hop : s.mem.read a0.toNat = 19 := fetch_opcode hi rfl
      exact .inr ⟨a0, c, hs, congrArg BitVec.toNat hop, hf, by rw [hout, emitted_some]⟩

end Sys2Proof

/-! # Proofs: push, pop, call -/

namespace Sys2Proof

namespace Machine

open Sys2Proof.Claims

/-- R93: an instruction of one operand falls through two cells on. -/
@[simp] theorem nextAddr_one (a0 : Cell) : nextAddr a0 1 = a0 + 2 := BitVec.add_assoc a0 1 1

/-- The Word of a number below the modulus has that number as its value (R7). -/
theorem word_ofNat_toNat {n : Nat} (h : n < 32768) : (BitVec.ofNat 15 n).toNat = n := by
  rw [BitVec.toNat_ofNat]
  exact Nat.mod_eq_of_lt h

/-- R11, R95: a register write committed on a state with the registers of `s` is seen in its register and in no
other. -/
theorem commit_setsReg {s t : State} {e : Effects} {r : RegIx} {v : Word} (hregs : t.regs = s.regs) (n : Cell)
    (he : e.reg = some (r, v)) : SetsReg s (commit t n e) r v := by
  rw [SetsReg, commit_regs, he, hregs]
  exact ⟨regs_set_self .., fun _ hq => regs_set_other _ _ hq⟩

/-- The shape `push` and `call` share (R121, R180): resolve the operand, push a cell made of its Word and the fall-through
address, and go where `pc` says. -/
def pushOne (cell : Word → Cell → Cell) (pc : Word → Option Pc) (a : Operand) (s : State) : Out :=
  perform s 1 fun next => do
    let v ← rdOp s a
    let op ← pushOp s (cell v next)
    pure { stack := op, pc := pc v }

/-- R121: `push` pushes the Word itself and falls through. -/
theorem exec_push_eq_pushOne (a : Operand) (s : State) :
    exec (.push a) s = pushOne (fun v _ => v.setWidth 16) (fun _ => none) a s := rfl

/-- R180: `call` pushes the fall-through address and goes to the Word. -/
theorem exec_call_eq_pushOne (a : Operand) (s : State) :
    exec (.call a) s = pushOne (fun _ next => next) (fun v => some (.running (v.setWidth 16))) a s := rfl

section stack

variable {s : State} {a0 : Cell} {a : Operand} {v : Word} {r : Raise}

/-- R19: with room, a resolved operand commits the push. -/
theorem pushOne_commits (cell : Word → Cell → Cell) (pc : Word → Option Pc) (hs : Running s a0)
    (ha : operandValue s a = some v) (hroom : s.cfg.stackDepth ≠ some s.stack.length) :
    pushOne cell pc a s = .next (commit s (a0 + 2) { stack := .push (cell v (a0 + 2)), pc := pc v }) := by
  rw [pushOne, ← nextAddr_one]
  refine perform_commits hs.1 hs.2 ?_
  simp only [rdOp_of_value ha, pushOp_room _ hroom, bind, Except.bind, pure, Except.pure]

/-- R66: an invalid operand raises `OutOfRange`, at any depth of the stack. -/
theorem pushOne_invalid (cell : Word → Cell → Cell) (pc : Word → Option Pc) (hs : Running s a0) (w : Cell) :
    Raises (pushOne cell pc (.invalid w) s) .outOfRange w.toNat := by
  rw [pushOne, perform_raises hs.1 hs.2 rfl]
  exact raises_latch _ _ _ (info_toNat_of_cell w)

/-- R19: behind a resolved operand a full stack raises `StackOverflow`. -/
theorem pushOne_overflows (cell : Word → Cell → Cell) (pc : Word → Option Pc) (hs : Running s a0)
    (ha : operandValue s a = some v) (hfull : s.cfg.stackDepth = some s.stack.length) :
    Raises (pushOne cell pc a s) .stackOverflow 0 := by
  rw [pushOne, perform_raises (r := { kind := .stackOverflow, info := 0 }) hs.1 hs.2
    (by simp only [rdOp_of_value ha, pushOp_full _ hfull, bind, Except.bind])]
  exact raises_latch _ _ _ rfl

/-- R121: with room, `push` commits the push of its resolved operand. -/
theorem exec_push_commits (hs : Running s a0) (ha : operandValue s a = some v)
    (hroom : s.cfg.stackDepth ≠ some s.stack.length) :
    exec (.push a) s = .next (commit s (a0 + 2) { stack := .push (v.setWidth 16) }) := by
  rw [exec_push_eq_pushOne, pushOne_commits _ _ hs ha hroom]

/-- R180: with room, `call` commits the push of the address behind it and its resolved operand as the new `pc`. -/
theorem exec_call_commits (hs : Running s a0) (ha : operandValue s a = some v)
    (hroom : s.cfg.stackDepth ≠ some s.stack.length) :
    exec (.call a) s =
      .next (commit s (a0 + 2) { stack := .push (a0 + 2), pc := some (.running (v.setWidth 16)) }) := by
  rw [exec_call_eq_pushOne, pushOne_commits _ _ hs ha hroom]

variable {c : Cell} {rest : List Cell}

/-- R122: `pop` commits the write of the top cell, where the destination takes it, and drops that cell. -/
theorem exec_pop_commits {w : RegIx × Word} (hs : Running s a0) (hstack : s.stack = c :: rest)
    (hw : wrOp a c.toNat = .ok w) :
    exec (.pop a) s = .next (commit s (a0 + 2) { reg := some w, stack := .drop }) := by
  rw [exec_pop_cons a hstack, hw, ← nextAddr_one]
  exact perform_commits hs.1 hs.2 rfl

/-- R67, R122: `pop` latches what the write of the top cell raises. -/
theorem exec_pop_raises (hs : Running s a0) (hstack : s.stack = c :: rest) (hw : wrOp a c.toNat = .error r) :
    exec (.pop a) s = .next (latch s a0 r) := by
  rw [exec_pop_cons a hstack, hw]
  exact perform_raises hs.1 hs.2 rfl

/-- R122: `pop` latches `StackUnderflow` on an empty stack, whatever its operand. -/
theorem exec_pop_underflows (hs : Running s a0) (a : Operand) (hempty : s.stack = []) :
    exec (.pop a) s = .next (latch s a0 { kind := .stackUnderflow, info := 0 }) := by
  rw [exec_pop_nil a hempty]
  exact perform_raises hs.1 hs.2 rfl

end stack

end Machine

open Sys2Proof.Machine

/-- Settles O15: a resolved operand is committed as a push, or overflows; an invalid one is latched before the depth is
looked at. -/
theorem pushPutsAWordOnTheStack : Obligations.PushPutsAWordOnTheStack := by
  refine ⟨fun _ => rfl, fun s a0 hs => ?_⟩
  simp only [exec_push_eq_pushOne]
  refine ⟨fun a v ha hroom => ?pushes, pushOne_invalid _ _ hs, fun a v => pushOne_overflows _ _ hs⟩
  case pushes =>
    exact ⟨_, pushOne_commits _ _ hs ha hroom, rfl, rfl, hs.1, fun _ => rfl, fun _ => rfl, rfl, List.append_nil _⟩

/-- Settles O30: a resolved operand is committed as the target, with the address behind the `call` pushed, or overflows;
an invalid one is latched before the depth is looked at. -/
theorem callPushesTheReturnAddress : Obligations.CallPushesTheReturnAddress := by
  refine ⟨fun _ => rfl, fun s a0 hs => ?_⟩
  simp only [exec_call_eq_pushOne]
  refine ⟨fun a v ha hroom => ?calls, pushOne_invalid _ _ hs, fun a v => pushOne_overflows _ _ hs⟩
  case calls =>
    exact ⟨_, pushOne_commits _ _ hs ha hroom, rfl, rfl, hs.1, fun _ => rfl, fun _ => rfl, rfl, List.append_nil _⟩

/-- Settles O16: an empty stack raises first; otherwise `pop` does what the write of the top cell to its operand does. -/
theorem popTakesTheTop : Obligations.PopTakesTheTop := by
  refine ⟨fun _ => rfl, fun s a0 hs =>
    ⟨fun r c rest hstack hc => ?pops, fun a hempty => ?underflows, fun a c rest hstack hc => ?noWord,
      fun x c rest hstack hc => ?literal, fun w c rest hstack hc => ?invalid⟩⟩
  case pops =>
    exact ⟨_, _, exec_pop_commits hs hstack (wrOp_reg r hc), word_ofNat_toNat hc, commit_setsReg rfl _ rfl,
      congrArg List.tail hstack, rfl, hs.1, fun _ => rfl, rfl, List.append_nil _⟩
  case underflows =>
    rw [exec_pop_underflows hs a hempty]
    exact raises_latch _ _ _ rfl
  case noWord =>
    rw [exec_pop_raises hs hstack (wrOp_tooLarge a hc)]
    exact raises_latch _ _ _ (info_toNat_of_cell c)
  case literal =>
    rw [exec_pop_raises hs hstack (wrOp_lit x hc)]
    exact raises_latch _ _ _ (info_toNat_of_word x)
  case invalid =>
    rw [exec_pop_raises hs hstack (wrOp_invalid w hc)]
    exact raises_latch _ _ _ (info_toNat_of_cell w)

/-- Settles O45: `ret` drops the return address `call` pushed and takes it as the new `pc`. -/
theorem callThenRetReturnsBehindTheCall : Obligations.CallThenRetReturnsBehindTheCall := by
  intro s a0 a v hs ha hroom
  exact ⟨_, _, exec_call_commits hs ha hroom, exec_ret_pops ⟨hs.1, rfl⟩ rfl, rfl, hs.1, rfl,
    fun _ => rfl, fun _ => rfl⟩

/-- Settles O46: the cell `push` leaves on top is a Word, which `pop` takes into the register. -/
theorem popAfterPushRestoresTheStack : Obligations.PopAfterPushRestoresTheStack := by
  intro s a0 a r v hs ha hroom
  have hw : wrOp (.reg r) (v.setWidth 16).toNat = .ok (r, v) := by rw [word_setWidth_toNat, wrOp_reg_word]
  exact ⟨_, _, exec_push_commits hs ha hroom, exec_pop_commits ⟨hs.1, rfl⟩ rfl hw, hs.1, rfl,
    commit_setsReg rfl _ rfl, fun _ => rfl, congrArg Pc.running (BitVec.add_assoc a0 2 2)⟩

end Sys2Proof

/-! # Proofs: jt and jf -/

namespace Sys2Proof

namespace Machine

open Sys2Proof.Claims

/-- An instruction that is a conditional jump follows the law of its shape, with the condition its test stands for. -/
theorem jumpLaw_of_jumpIf {op : Cell} {mk : Operand → Operand → Instr} {test : Word → Bool} {taken : Word → Prop}
    (hencode : ∀ a b, encode (mk a b) = [op, a.toCell, b.toCell])
    (hexec : ∀ a b s, exec (mk a b) s = jumpIf test a b s)
    (htest : ∀ va, test va = true ↔ taken va) : JumpLaw op mk taken := by
  refine ⟨hencode, fun s a0 hs => ?_⟩
  simp only [hexec, ← htest, Bool.not_eq_true]
  refine ⟨fun a b va vb ha ht hb => ?taken, fun a b va ha ht => ?notTaken, fun w b => ?condition,
    fun a va w ha ht => ?target⟩
  case taken =>
    rw [jumpIf_taken hs (rdOp_of_value ha) ht (rdOp_of_value hb)]
    exact commit_pc_goesTo hs.1 _ _
  case notTaken =>
    rw [jumpIf_not_taken hs (rdOp_of_value ha) ht, nextAddr_two]
    exact commit_pc_goesTo hs.1 _ none
  case condition =>
    rw [jumpIf_raises_condition hs (rdOp_invalid s w)]
    exact raises_latch _ _ _ (info_toNat_of_cell w)
  case target =>
    rw [jumpIf_raises_target hs (rdOp_of_value ha) ht (rdOp_invalid s w)]
    exact raises_latch _ _ _ (info_toNat_of_cell w)

/-- R141: a Word counts as true exactly when its value is not 0. -/
theorem wordTrue_iff (v : Word) : wordTrue v = true ↔ v.toNat ≠ 0 :=
  decide_eq_true_iff.trans (not_congr BitVec.toNat_inj.symm)

/-- R142: a Word counts as false exactly when its value is 0. -/
theorem not_wordTrue_iff (v : Word) : (!wordTrue v) = true ↔ v.toNat = 0 := by
  rw [Bool.not_eq_true', ← Bool.not_eq_true, wordTrue_iff, not_not]

end Machine

open Sys2Proof.Machine

/-- Settles O20: `jt` is the conditional jump whose test is that the Word is not 0. -/
theorem jtJumpsWhenNonzero : Obligations.JtJumpsWhenNonzero :=
  jumpLaw_of_jumpIf (fun _ _ => rfl) exec_jt wordTrue_iff

/-- Settles O21: `jf` is the conditional jump whose test is that the Word is 0. -/
theorem jfJumpsWhenZero : Obligations.JfJumpsWhenZero :=
  jumpLaw_of_jumpIf (fun _ _ => rfl) exec_jf not_wordTrue_iff

end Sys2Proof

/-! # Proofs: rmem -/

namespace Sys2Proof

namespace Machine

/-- R66: what an operand denotes depends on the registers alone. -/
theorem operandValue_of_regs_eq {s t : State} (h : t.regs = s.regs) (o : Operand) :
    operandValue t o = operandValue s o := by
  cases o with
  | lit v => rfl
  | reg r => simp only [operandValue, h]
  | invalid w => rfl

end Machine

open Sys2Proof.Machine

/-- Settles O28: `rmem` is the unary shape with the addressed cell as its result, which the destination write rejects
first when it is no Word. -/
theorem rmemLoadsACell : Obligations.RmemLoadsACell := by
  refine ⟨fun _ _ => rfl, fun s a0 hs => ?_⟩
  simp only [exec_rmem]
  refine ⟨fun r b addr hb hc => unaryOp_writesOnly hs r hb hc (word_ofNat_toNat hc), unaryOp_invalid_source hs,
    fun a b addr hb hc => ?noWord, fun x b addr hb hc => unaryOp_lit_destination hs x hb hc,
    fun w b addr hb hc => unaryOp_invalid_destination hs w hb hc⟩
  case noWord =>
    rw [unaryOp_raises_write hs (rdOp_of_value hb) (wrOp_tooLarge a hc)]
    exact raises_latch _ _ _ (info_toNat_of_cell _)

/-- Settles O47: the registers, and so the address, are as before the store; the cell `rmem` reads holds the Word
stored. -/
theorem rmemAfterWmemReturnsTheValue : Obligations.RmemAfterWmemReturnsTheValue := by
  intro s a0 a b c r addr v hs hm ha hb hc
  have hw : wrOp (.reg r) ((s.mem.write addr.toNat (v.setWidth 16)).read addr.toNat).toNat = .ok (r, v) := by
    rw [read_write_self hm, word_setWidth_toNat, wrOp_reg_word]
  have hc' := rdOp_of_value ((operandValue_of_regs_eq rfl c).trans hc)
  exact ⟨_, _, exec_wmem_commits hs (rdOp_of_value ha) (rdOp_of_value hb),
    unaryOp_commits ⟨hs.1, rfl⟩ hc' hw, hs.1, commit_setsReg rfl _ rfl,
    congrArg Pc.running ((nextAddr_two _).trans (BitVec.add_assoc a0 3 3))⟩

end Sys2Proof

/-! # Proofs: out and in -/

namespace Sys2Proof

namespace Machine

open Sys2Proof.Claims

section out

variable {s : State} {a0 : Cell} {a : Operand} {c : Word} {r : Raise}

/-- R190: `out` commits the emission of its resolved operand. -/
theorem exec_out_commits (hs : Running s a0) (ha : rdOp s a = .ok c) :
    exec (.out a) s = .next (commit s (a0 + 2) { emit := some c }) := by
  rw [exec_out, ha, ← nextAddr_one]
  exact perform_commits hs.1 hs.2 rfl

/-- R66, R97: `out` latches what the reading of its operand raises. -/
theorem exec_out_raises (hs : Running s a0) (ha : rdOp s a = .error r) :
    exec (.out a) s = .next (latch s a0 r) := by
  rw [exec_out, ha]
  exact perform_raises hs.1 hs.2 rfl

end out

/-- R192, R193: the line `in` takes its character from: the one in the line buffer, else the source's answer. -/
theorem refill_inbuf {s : State} {line : List CodePoint}
    (h : (s.inbuf ≠ [] ∧ line = s.inbuf) ∨ (s.inbuf = [] ∧ line = (nextAnswer s).getD [])) :
    (refill s).inbuf = line := by
  rcases h with ⟨hne, rfl⟩ | ⟨hempty, rfl⟩
  · rw [refill_of_ne_nil hne]
  · rw [refill_of_nil hempty, pullLine_inbuf]

/-- R90: the pull of a line leaves the machine running where it was. -/
theorem refill_running {s : State} {a0 : Cell} (hs : Running s a0) : Running (refill s) a0 :=
  ⟨(refill_fault s).trans hs.1, (refill_pc s).trans hs.2⟩

section input

variable {s : State} {a0 : Cell} {a : Operand} {ch : CodePoint} {rest : List CodePoint} {r : Raise}

/-- R195: `in` consumes the first character of its line into a destination that takes it. -/
theorem exec_input_commits {w : RegIx × Word} (hs : Running s a0) (hline : (refill s).inbuf = ch :: rest)
    (hw : wrOp a ch.val = .ok w) :
    exec (.input a) s = .next (commit (refill s) (a0 + 2) { reg := some w, consume := true }) := by
  obtain ⟨hf, hp⟩ := refill_running hs
  rw [exec_input, ← nextAddr_one]
  exact perform_commits hf hp (by simp only [hline, takeChar, hw, bind, Except.bind, pure, Except.pure])

/-- R67, R195: `in` latches what the write of the first character of its line raises, in the refilled state. -/
theorem exec_input_raises (hs : Running s a0) (hline : (refill s).inbuf = ch :: rest)
    (hw : wrOp a ch.val = .error r) : exec (.input a) s = .next (latch (refill s) a0 r) := by
  obtain ⟨hf, hp⟩ := refill_running hs
  rw [exec_input]
  exact perform_raises hf hp (by simp only [hline, takeChar, hw, bind, Except.bind])

/-- R192: `in` without a line latches `EndOfInput`, whatever its operand. -/
theorem exec_input_ends (hs : Running s a0) (a : Operand) (hline : (refill s).inbuf = []) :
    exec (.input a) s = .next (latch (refill s) a0 { kind := .endOfInput, info := 0 }) := by
  obtain ⟨hf, hp⟩ := refill_running hs
  rw [exec_input]
  exact perform_raises hf hp (by rw [hline]; rfl)

/-- Everything `in` can do when it answers a next state (R192 to R195): find no line, fail to write the first character
of its line, or consume that character. -/
theorem exec_input_next {t : State} (h : exec (.input a) s = .next t) :
    ∃ a0, Running s a0 ∧
      (((refill s).inbuf = [] ∧ t = latch (refill s) a0 { kind := .endOfInput, info := 0 }) ∨
       ((refill s).inbuf ≠ [] ∧ ∃ r, t = latch (refill s) a0 r) ∨
       (∃ ch rest w, (refill s).inbuf = ch :: rest ∧ wrOp a ch.val = .ok w ∧
          t = commit (refill s) (a0 + 2) { reg := some w, consume := true })) := by
  obtain ⟨a0, hs, _⟩ := exec_next h
  refine ⟨a0, hs, ?_⟩
  rcases takeChar_cases a (refill s).inbuf with ⟨hline, _⟩ | ⟨ch, rest, r, hline, hw, _⟩ | ⟨ch, rest, w, hline, hw, _⟩
  · rw [exec_input_ends hs a hline] at h
    cases h
    exact .inl ⟨hline, rfl⟩
  · rw [exec_input_raises hs hline hw] at h
    cases h
    exact .inr (.inl ⟨by rw [hline]; exact List.cons_ne_nil _ _, r, rfl⟩)
  · rw [exec_input_commits hs hline hw] at h
    cases h
    exact .inr (.inr ⟨ch, rest, w, hline, hw, rfl⟩)

/-- R195: a failing `in` leaves the whole line in the buffer. -/
theorem exec_input_fault_inbuf {t : State} (h : exec (.input a) s = .next t) (ht : t.fault ≠ none) :
    t.inbuf = (refill s).inbuf := by
  obtain ⟨a0, hs, ⟨_, rfl⟩ | ⟨_, r, rfl⟩ | ⟨ch, rest, w, _, _, rfl⟩⟩ := exec_input_next h
  · rfl
  · rfl
  · exact absurd (refill_running hs).1 ht

end input

/-- R193: a pull that brings a line moves it from the lined-up answers into the buffer, so the stream stays as it was. -/
theorem inputStream_refill {s : State} (h : s.inbuf ≠ [] ∨ s.source ≠ []) (hline : (refill s).inbuf ≠ []) :
    inputStream (refill s) = inputStream s := by
  rcases refill_cases s with ⟨_, hsame⟩ | ⟨hempty, hpull⟩
  · rw [hsame]
  · rw [hpull] at hline ⊢
    obtain ⟨answer, answers, hsource⟩ := List.exists_cons_of_ne_nil (h.resolve_left (absurd hempty))
    have hanswer : nextAnswer s = answer := by simp only [nextAnswer, hsource]
    simp only [inputStream, pullLine_inbuf, pullLine_source, hsource, hempty, hanswer] at hline ⊢
    match answer with
    | none => exact absurd rfl hline
    | some [] => exact absurd rfl hline
    | some (_ :: _) => rfl

end Machine

open Sys2Proof.Machine

/-- Settles O32: a resolved operand is committed as an emission, with the flush behind the newline; an invalid one is
latched. -/
theorem outEmitsItsOperand : Obligations.OutEmitsItsOperand := by
  refine ⟨fun _ => rfl, fun s a0 hs => ⟨fun a c ha => ?emits, fun w => ?invalid⟩⟩
  case emits =>
    refine ⟨_, exec_out_commits hs (rdOp_of_value ha), fun hc => ?_, fun hc => ?_, rfl, hs.1, fun _ => rfl, rfl,
      fun _ => rfl, rfl⟩
    · rw [commit_out, emitted_some, if_pos hc]
    · rw [commit_out, emitted_some, if_neg hc]
  case invalid =>
    rw [exec_out_raises hs (rdOp_invalid s w)]
    exact raises_latch _ _ _ (info_toNat_of_cell w)

/-- Settles O33: on the refilled line buffer, `in` does what the write of the first character to its operand does. -/
theorem inConsumesOneCharacter : Obligations.InConsumesOneCharacter := by
  refine ⟨fun _ => rfl, fun s a0 hs line hwhich => ?_⟩
  obtain rfl := refill_inbuf hwhich
  refine ⟨fun r ch rest hline hch => ?consumes, fun a hline => ?ends, fun a ch rest hline hch => ?noWord,
    fun x ch rest hline hch => ?literal, fun w ch rest hline hch => ?invalid,
    fun a t h ht => exec_input_fault_inbuf h ht⟩
  case consumes =>
    exact ⟨_, _, exec_input_commits hs hline (wrOp_reg r hch), word_ofNat_toNat hch,
      commit_setsReg (refill_regs s) _ rfl, congrArg List.tail hline, rfl, (refill_running hs).1, refill_stack s,
      fun k => congrArg (·.read k) (refill_mem s), (List.append_nil _).trans (refill_out s)⟩
  case ends =>
    rw [exec_input_ends hs a hline]
    exact raises_latch _ _ _ rfl
  case noWord =>
    rw [exec_input_raises hs hline (wrOp_tooLarge a hch)]
    exact raises_latch _ _ _ (Nat.mod_eq_of_lt (by omega))
  case literal =>
    rw [exec_input_raises hs hline (wrOp_lit x hch)]
    exact raises_latch _ _ _ (info_toNat_of_word x)
  case invalid =>
    rw [exec_input_raises hs hline (wrOp_invalid w hch)]
    exact raises_latch _ _ _ (info_toNat_of_cell w)

/-- Settles O48: where a line was found the refilled state has the stream of the state before, of which a commit takes
the first character and a latch nothing. -/
theorem inConsumesTheStreamInOrder : Obligations.InConsumesTheStreamInOrder := by
  intro a s t hinput h
  obtain ⟨a0, hs, ⟨_, rfl⟩ | ⟨hline, r, rfl⟩ | ⟨ch, rest, w, hline, hw, rfl⟩⟩ := exec_input_next h
  · refine ⟨fun ht => ?_, fun _ ht hkind => ?_⟩
    · cases ht
    · cases ht
      exact absurd rfl hkind
  · refine ⟨fun ht => ?_, fun _ _ _ => inputStream_refill hinput hline⟩
    cases ht
  · refine ⟨fun _ => ?_, fun _ ht _ => ?_⟩
    · obtain ⟨hch, ha, hv⟩ := wrOp_ok hw
      have hstream := inputStream_refill hinput (by rw [hline]; exact List.cons_ne_nil _ _)
      refine ⟨w.1, ch, ha, ?_, ?_⟩
      · rw [commit_regs, applyReg_some, regs_set_self, hv, word_ofNat_toNat hch]
      · rw [← hstream]
        simp [inputStream, hline]
    · rw [commit_fault, (refill_running hs).1] at ht
      cases ht

end Sys2Proof

/-! # Proofs: the run loop -/

namespace Sys2Proof

namespace Machine

section run

variable {s : State}

/-- R99, R101: the run loop finds no reason to stop exactly when the machine is running. -/
theorem stopReason_none_iff : stopReason s = none ↔ ∃ a0, Running s a0 := by
  unfold stopReason
  cases hf : s.fault with
  | some r => simp [hf]
  | none => cases hp : s.pc <;> simp [hf, hp]

/-- R99: the reasons the run loop finds before its budget's are a latched fault and a good end. -/
theorem stopReason_some {reason : StopReason} (h : stopReason s = some reason) :
    (reason = .halted ∧ EndedWell s) ∨ ∃ r, reason = .fault r ∧ s.fault = some r := by
  unfold stopReason at h
  split at h
  · next r hf =>
    cases h
    exact .inr ⟨r, rfl, hf⟩
  · next hf =>
    split at h
    · next hp =>
      cases h
      exact .inl ⟨rfl, hp, hf⟩
    · cases h

/-- R99: the budget is no reason of the state. -/
theorem stopReason_ne_budget {reason : StopReason} (h : stopReason s = some reason) : reason ≠ .budget := by
  rcases stopReason_some h with ⟨rfl, _⟩ | ⟨r, rfl, _⟩
  · exact StopReason.noConfusion
  · exact StopReason.noConfusion

/-- R99: a stopped machine stays as it is, with any budget. -/
theorem runFor_stopped {reason : StopReason} (h : stopReason s = some reason) (n : Nat) :
    runFor n s = (s, reason) := by
  cases n with
  | zero => rw [runFor, h, Option.getD_some]
  | succ n => simp only [runFor, h]

/-- R99: a running machine with steps left takes one. -/
theorem runFor_running (h : stopReason s = none) (n : Nat) : runFor (n + 1) s = runFor n (afterStep s) := by
  simp only [runFor, h]

/-- R99: the reason of a run is the one its last state gives, or the budget where that gives none. -/
theorem runFor_reason (n : Nat) (s : State) : (runFor n s).2 = (stopReason (runFor n s).1).getD .budget := by
  induction n generalizing s with
  | zero => rfl
  | succ n ih =>
    cases h : stopReason s with
    | some reason => rw [runFor_stopped h, h, Option.getD_some]
    | none =>
      rw [runFor_running h]
      exact ih _

/-- R99: a run stopped by its budget leaves a running machine. -/
theorem runFor_budget_running {n : Nat} (h : (runFor n s).2 = .budget) : stopReason (runFor n s).1 = none := by
  rw [runFor_reason] at h
  cases hstop : stopReason (runFor n s).1 with
  | none => rfl
  | some reason =>
    rw [hstop, Option.getD_some] at h
    exact absurd h (stopReason_ne_budget hstop)

/-- R99: a run stopped for another reason found it in its last state. -/
theorem runFor_stopReason {n : Nat} {reason : StopReason} (h : (runFor n s).2 = reason) (hne : reason ≠ .budget) :
    stopReason (runFor n s).1 = some reason := by
  rw [runFor_reason] at h
  cases hstop : stopReason (runFor n s).1 with
  | none =>
    rw [hstop, Option.getD_none] at h
    exact absurd h.symm hne
  | some found =>
    rw [hstop, Option.getD_some] at h
    exact congrArg some h

/-- R99: going on after a run that its budget stopped is one run with both budgets. -/
theorem runFor_add_of_budget (m n : Nat) (h : (runFor m s).2 = .budget) :
    runFor (m + n) s = runFor n (runFor m s).1 := by
  induction m generalizing s with
  | zero =>
    rw [Nat.zero_add]
    rfl
  | succ m ih =>
    cases hstop : stopReason s with
    | some reason =>
      rw [runFor_stopped hstop] at h
      exact absurd h (stopReason_ne_budget hstop)
    | none =>
      rw [runFor_running hstop] at h
      rw [Nat.succ_add, runFor_running hstop, runFor_running hstop]
      exact ih h

/-- R99: a run that stopped for another reason than its budget is the same with any larger budget. -/
theorem runFor_add_of_stopped (m n : Nat) (h : (runFor m s).2 ≠ .budget) : runFor (m + n) s = runFor m s := by
  induction m generalizing s with
  | zero =>
    have hstop : stopReason s = some (runFor 0 s).2 := runFor_stopReason rfl h
    rw [runFor_stopped hstop, runFor_stopped hstop]
  | succ m ih =>
    cases hstop : stopReason s with
    | some reason => rw [runFor_stopped hstop, runFor_stopped hstop]
    | none =>
      rw [runFor_running hstop] at h
      rw [Nat.succ_add, runFor_running hstop, runFor_running hstop]
      exact ih h

/-- R25: a step of a running machine counts one unless it leaves a fault, and then none. -/
theorem afterStep_steps (h : stopReason s = none) :
    ((afterStep s).fault = none ∧ (afterStep s).steps = s.steps + 1) ∨
    (∃ r, (afterStep s).fault = some r ∧ (afterStep s).steps = s.steps) := by
  obtain ⟨a0, hs⟩ := stopReason_none_iff.1 h
  obtain ⟨t, ht⟩ := step_answers hs
  have hafter : afterStep s = t := by simp only [afterStep, ht]
  rw [hafter]
  obtain ⟨b0, _, ⟨r, _, rfl⟩ | ⟨i, _, hexec⟩⟩ := step_next ht
  · exact .inr ⟨_, latch_fault .., rfl⟩
  · obtain ⟨hcounted, huncounted⟩ := committedStepsAreCounted i s t hexec
    cases hf : t.fault with
    | none => exact .inl ⟨rfl, hcounted hf⟩
    | some r => exact .inr ⟨r, rfl, huncounted (by rw [hf]; exact Option.some_ne_none r)⟩

/-- R25, R99: a run counts at most the steps of its budget, and all of them when the budget stopped it. -/
theorem runFor_steps (n : Nat) (s : State) :
    s.steps ≤ (runFor n s).1.steps ∧ (runFor n s).1.steps ≤ s.steps + n ∧
    ((runFor n s).2 = .budget → (runFor n s).1.steps = s.steps + n) := by
  induction n generalizing s with
  | zero => exact ⟨Nat.le_refl _, Nat.le_refl _, fun _ => rfl⟩
  | succ n ih =>
    cases hstop : stopReason s with
    | some reason =>
      rw [runFor_stopped hstop]
      exact ⟨Nat.le_refl _, Nat.le_add_right _ _, fun h => absurd h (stopReason_ne_budget hstop)⟩
    | none =>
      rw [runFor_running hstop]
      obtain ⟨hlo, hhi, hall⟩ := ih (afterStep s)
      rcases afterStep_steps hstop with ⟨_, hcount⟩ | ⟨r, hf, hcount⟩
      · exact ⟨by omega, by omega, fun h => by rw [hall h]; omega⟩
      · have hfaulted : stopReason (afterStep s) = some (.fault r) := by simp only [stopReason, hf]
        refine ⟨by omega, by omega, fun h => ?_⟩
        rw [runFor_stopped hfaulted] at h
        cases h

end run

end Machine

open Sys2Proof.Machine

/-- Settles O49, by the induction of `runFor_add_of_budget` on the first budget. -/
theorem budgetStopIsAPause : Obligations.BudgetStopIsAPause := fun m n _ h => runFor_add_of_budget m n h

/-- Settles O50: a reason other than the budget is one the last state gives; the budget leaves a running machine and
every step of it counted. -/
theorem runStopsForATrueReason : Obligations.RunStopsForATrueReason := by
  intro n s
  obtain ⟨hlo, hhi, hall⟩ := runFor_steps n s
  refine ⟨fun h => ?halted, fun r h => ?faulted, fun h => ?budget, hlo, hhi⟩
  case halted =>
    rcases stopReason_some (runFor_stopReason h StopReason.noConfusion) with ⟨_, hgood⟩ | ⟨_, hfault, _⟩
    · exact hgood
    · cases hfault
  case faulted =>
    rcases stopReason_some (runFor_stopReason h StopReason.noConfusion) with ⟨hhalt, _⟩ | ⟨_, hfault, hlatched⟩
    · cases hhalt
    · cases hfault
      exact hlatched
  case budget => exact ⟨stopReason_none_iff.1 (runFor_budget_running h), hall h⟩

/-- Settles O51: with a bounded budget `Runs` is a function; without one, the longer of two runs that stopped is the
shorter one. -/
theorem runResultIsUnique : Obligations.RunResultIsUnique := by
  intro b s x y hx hy
  unfold Runs at hx hy
  cases hlimit : b.limit s with
  | some n =>
    rw [hlimit] at hx hy
    exact hx.trans hy.symm
  | none =>
    rw [hlimit] at hx hy
    obtain ⟨m, rfl, hm⟩ := hx
    obtain ⟨n, rfl, hn⟩ := hy
    rcases Nat.le_total m n with hle | hle
    · rw [← Nat.add_sub_of_le hle, runFor_add_of_stopped m _ hm]
    · rw [← Nat.add_sub_of_le hle, runFor_add_of_stopped n _ hn]

end Sys2Proof

/-! # Proofs: reset and the image loader -/

namespace Sys2Proof

namespace Machine

/-- R52, R54: before the first step an image that fits is placed from address 0. -/
theorem loadImage_places {s : State} {ws : List Cell} (h : ws.length ≤ 32768) (hb : beforeFirstStep s = true) :
    loadImage ws s = .next { s with mem := s.mem.place 0 ws } := by
  rw [loadImage, if_neg h.not_gt, if_pos hb]

/-- R54: an image longer than memory is refused. -/
theorem loadImage_tooLong {ws : List Cell} (h : 32768 < ws.length) (s : State) :
    loadImage ws s = .refused .imageTooLong := if_pos h

/-- R30, R31: a load after a committed step is refused. -/
theorem loadImage_late {s : State} {ws : List Cell} (h : ws.length ≤ 32768) (hs : s.steps ≠ 0) :
    loadImage ws s = .refused .loadAfterFirstStep := by
  have hb : beforeFirstStep s = false := by simp [beforeFirstStep, hs]
  simp only [loadImage, if_neg h.not_gt, hb, Bool.false_eq_true, if_false]

/-- R52: what an image placed in an empty memory reads as. -/
theorem read_place_nil {ws : List Cell} (h : ws.length ≤ 32768) (k : Nat) :
    (Memory.place [] 0 ws).read k = (ws[k]?).getD 0 := by
  rw [read_place wf_nil]
  split
  · rfl
  · next hk =>
    have hbeyond : ws.length ≤ k := by
      by_contra hlt
      exact hk ⟨Nat.zero_le k, (Nat.lt_of_not_le hlt).trans_le h⟩
    rw [List.getElem?_eq_none hbeyond]
    rfl

/-- R53: a word is its high byte and its low byte. -/
theorem high_append_low (w : Cell) : (w.extractLsb' 8 8 ++ w.extractLsb' 0 8 : BitVec 16) = w := by
  rw [BitVec.extractLsb'_append_extractLsb'_eq_extractLsb' (by rfl)]
  exact BitVec.extractLsb'_eq_self

/-- R54: an odd number of bytes has no words. -/
theorem imageWords_odd : ∀ bytes : List (BitVec 8), bytes.length % 2 = 1 → imageWords bytes = none
  | [], h => absurd h (by decide)
  | [_], _ => rfl
  | _ :: _ :: rest, h => by
    have hrest : rest.length % 2 = 1 := by
      rw [List.length_cons, List.length_cons] at h
      omega
    rw [imageWords, imageWords_odd rest hrest, Option.map_none]

end Machine

open Sys2Proof.Machine

/-- Settles O53: after a reset memory is empty and no step is taken, so a fitting image is placed; the two refusals are
the loader's tests. -/
theorem imageLoadsFromAddressZero : Obligations.ImageLoadsFromAddressZero :=
  ⟨fun _ _ h => ⟨_, loadImage_places h rfl, ⟨rfl, rfl⟩, read_place_nil h⟩,
    fun s _ h => loadImage_tooLong h s, fun _ _ h hs => loadImage_late h hs⟩

/-- Settles O54: word by word, low byte and high byte join to the word; an odd number of bytes has no words to load. -/
theorem imageBytesAreLittleEndian : Obligations.ImageBytesAreLittleEndian := by
  refine ⟨fun ws => ?words, fun s bytes h => ?odd⟩
  case words =>
    induction ws with
    | nil => rfl
    | cons w ws ih =>
      rw [List.flatMap_cons, List.cons_append, List.cons_append, List.nil_append, imageWords, ih, Option.map_some,
        high_append_low]
  case odd => rw [loadImageBytes, imageWords_odd bytes h]

/-- Settles O39: the fields of the reset state. -/
theorem resetState : Obligations.ResetState :=
  ⟨read_nil, fun q => Vector.getElem_replicate q.isLt, reset_pc, reset_stack, reset_inbuf, reset_fault, reset_steps,
    reset_out, rfl⟩

/-- Settles O52: `Reset()` takes the fields of the reset state, the registers from the parameters. -/
theorem resetOperationClearsTheMachine : Obligations.ResetOperationClearsTheMachine :=
  fun _ => ⟨⟨reset_fault, reset_pc⟩, read_nil, rfl, reset_stack, reset_inbuf, reset_out, reset_steps, rfl⟩

end Sys2Proof

/-! # Proofs: words of the spec -/

namespace Sys2Proof

/-- Settles O1: each list of words is the encoding of the instruction it stands for. -/
theorem specWordsDecodeToTheirInstruction : Obligations.SpecWordsDecodeToTheirInstruction :=
  ⟨decodeInvertsEncode .halt [] rfl, decodeInvertsEncode .noop [] rfl,
    decodeInvertsEncode (.set (.reg 7) (.lit 32767)) [] rfl,
    decodeInvertsEncode (.pop (.reg 2)) [] rfl,
    decodeInvertsEncode (.eq (.reg 0) (.reg 1) (.lit 7)) [] rfl,
    decodeInvertsEncode (.jt (.invalid 40000) (.lit 16384)) [] rfl,
    decodeInvertsEncode (.add (.reg 0) (.lit 4) (.lit 5)) [] rfl,
    decodeInvertsEncode (.wmem (.lit 5) (.reg 0)) [] rfl,
    decodeInvertsEncode (.call (.lit 6)) [] rfl,
    decodeInvertsEncode (.input (.reg 0)) [] rfl⟩

end Sys2Proof
